-- ==== Sys2Proof/Word.lean ====
section
/-! DEFINITION. The word types of TWBM (R8, R9): every quantity is unsigned and of fixed width. -/

namespace Sys2Proof

/-- One byte: a register number, a data value, a slot, an address byte on the wire (R8, R9). -/
abbrev Byte := BitVec 8

/-- A 7-bit bus address (R8, R50, R54). -/
abbrev BusAddr := BitVec 7

/-- The half-period in microseconds, `HPW` = 16 bits (R7, R21; decision D4). -/
abbrev HalfPeriod := BitVec 16

/-- A command word: an abstract 32-bit value with no byte order (R80; decision D24). -/
abbrev CommandWord := BitVec 32

/-- The 16-bit response word (R86). -/
abbrev ResponseWord := BitVec 16

end Sys2Proof
end

