-- ==== Sys2Proof/Syntax.lean ====
section
/-! DEFINITION. The twelve commands of R82, one constructor for each row of spec/opcode_table.json. -/

namespace Sys2Proof

/-- A command (R82) with its operands, each at its field's width (R81, R83): an operand that does not
fit its field cannot be written. -/
inductive Instr where
  /-- `BE.BEGIN` (R111). -/
  | beBegin
  /-- `BE.SETHP us` (R112). -/
  | beSethp (us : HalfPeriod)
  /-- `BE.PROBE addr` (R113). -/
  | beProbe (addr : BusAddr)
  /-- `BE.WR8 addr, reg, val` (R114). -/
  | beWr8 (addr : BusAddr) (reg : Byte) (val : Byte)
  /-- `BE.RD8 addr, reg`, and with `nd` the spelling `BE.RD8.ND addr, reg` (R95, R115): the same
  command with a null destination. -/
  | beRd8 (addr : BusAddr) (reg : Byte) (nd : Bool)
  /-- `DC.BEGIN` (R141). -/
  | dcBegin
  /-- `DC.SELLIB id` (R143). -/
  | dcSellib (id : Byte)
  /-- `DC.SETMODE mode` (R144). -/
  | dcSetmode (mode : Byte)
  /-- `DC.SETWAVE slot, effect` (R145). -/
  | dcSetwave (slot : Byte) (effect : Byte)
  /-- `DC.GO` (R147). -/
  | dcGo
  /-- `DC.RDSTATUS` (R148). -/
  | dcRdstatus
  /-- `DC.ISCONN` (R149). -/
  | dcIsconn
  deriving DecidableEq, Repr

/-- The mnemonic of R82. -/
def Instr.mnemonic : Instr → String
  | .beBegin => "BE.BEGIN"
  | .beSethp _ => "BE.SETHP"
  | .beProbe _ => "BE.PROBE"
  | .beWr8 _ _ _ => "BE.WR8"
  | .beRd8 _ _ _ => "BE.RD8"
  | .dcBegin => "DC.BEGIN"
  | .dcSellib _ => "DC.SELLIB"
  | .dcSetmode _ => "DC.SETMODE"
  | .dcSetwave _ _ => "DC.SETWAVE"
  | .dcGo => "DC.GO"
  | .dcRdstatus => "DC.RDSTATUS"
  | .dcIsconn => "DC.ISCONN"

/-- The spelling of R95's command streams, without the operands: `BE.RD8.ND` is `BE.RD8` with
`ND = 1`, "not a thirteenth command". -/
def Instr.spelling : Instr → String
  | .beRd8 _ _ true => "BE.RD8.ND"
  | i => i.mnemonic

end Sys2Proof
end

