-- ==== Sys2Proof/WellFormed.lean ====
section
/-! DEFINITION. Which command words are legal (R81, R82, R85).

A term of `Instr` is well formed by its type: each operand has its field's width, and R83, R85 put no
other limit on an operand.  What can be ill formed is the 32-bit word the host offers, so the checks
stand over words.  They are written from R82's `match` and `mask` columns and R81's "must be zero"
column, apart from the decoder, which is written from R81's field positions. -/

namespace Sys2Proof

/-- The formats of R81, by the fields they use. -/
inductive Format where
  | z | i | a | abc | abn | c | bc
  deriving DecidableEq, Repr

/-- The bits of the word, apart from `OPC`, that a format requires to be zero (R81). -/
def Format.mustBeZero : Format → CommandWord
  | .z => 0x00FFFFFF
  | .i => 0x00FF0000
  | .a => 0x0080FFFF
  | .abc => 0x00800000
  | .abn => 0x008000FE
  | .c => 0x00FFFF00
  | .bc => 0x00FF0000

/-- One row of the opcode map of R82. -/
structure OpcodeRow where
  opc : Byte
  mnemonic : String
  format : Format
  /-- The `match` column. -/
  pattern : CommandWord
  mask : CommandWord
  deriving DecidableEq, Repr

/-- The opcode map of R82. -/
def opcodeMap : List OpcodeRow :=
  [ ⟨0x00, "BE.BEGIN", .z, 0x00000000, 0xFFFFFFFF⟩
  , ⟨0x01, "BE.SETHP", .i, 0x01000000, 0xFFFF0000⟩
  , ⟨0x02, "BE.PROBE", .a, 0x02000000, 0xFF80FFFF⟩
  , ⟨0x03, "BE.WR8", .abc, 0x03000000, 0xFF800000⟩
  , ⟨0x04, "BE.RD8", .abn, 0x04000000, 0xFF8000FE⟩
  , ⟨0x10, "DC.BEGIN", .z, 0x10000000, 0xFFFFFFFF⟩
  , ⟨0x11, "DC.SELLIB", .c, 0x11000000, 0xFFFFFF00⟩
  , ⟨0x12, "DC.SETMODE", .c, 0x12000000, 0xFFFFFF00⟩
  , ⟨0x13, "DC.SETWAVE", .bc, 0x13000000, 0xFFFF0000⟩
  , ⟨0x14, "DC.GO", .z, 0x14000000, 0xFFFFFFFF⟩
  , ⟨0x15, "DC.RDSTATUS", .z, 0x15000000, 0xFFFFFFFF⟩
  , ⟨0x16, "DC.ISCONN", .z, 0x16000000, 0xFFFFFFFF⟩ ]

/-- "a word `w` selects the command iff `w & mask = match`" (R82). -/
def OpcodeRow.selects (r : OpcodeRow) (w : CommandWord) : Bool := w &&& r.mask == r.pattern

/-- "A word is *legal* iff it matches exactly one row of rule R82" (R85). -/
def wordLegal (w : CommandWord) : Bool := (opcodeMap.filter (·.selects w)).length == 1

/-- R85's first check: the operation code is in the table. -/
def opcodeListed (w : CommandWord) : Bool := opcodeMap.any (·.opc == w.extractLsb' 24 8)

/-- R85's second check: no row of this operation code finds a nonzero bit in a must-be-zero
position. -/
def reservedBitsZero (w : CommandWord) : Bool :=
  opcodeMap.all fun r => r.opc != w.extractLsb' 24 8 || w &&& r.format.mustBeZero == 0

end Sys2Proof
end

