-- ==== Sys2Proof/Decode.lean ====
section
/-! DEFINITION. The decoder of command words, total and rejecting by name (R80 to R85), and after it the
encoder. -/

namespace Sys2Proof

/-- Why a word is illegal (R85).  Nothing but the model distinguishes the two: the block answers both
with `(0, 0x00)` (R165). -/
inductive Illegal where
  /-- The `OPC` value is not in the table. -/
  | unknownOpcode
  /-- A listed `OPC` with a nonzero bit in a must-be-zero position. -/
  | reservedBits
  deriving DecidableEq, Repr

/-! The fields of a command word (R81). -/

/-- `OPC`, bits 31:24. -/
def fieldOpc (w : CommandWord) : Byte := w.extractLsb' 24 8

/-- `Z23`, bit 23. -/
def fieldZ23 (w : CommandWord) : Bool := w.getLsbD 23

/-- `A`, bits 22:16. -/
def fieldA (w : CommandWord) : BusAddr := w.extractLsb' 16 7

/-- `B`, bits 15:8. -/
def fieldB (w : CommandWord) : Byte := w.extractLsb' 8 8

/-- `C`, bits 7:0. -/
def fieldC (w : CommandWord) : Byte := w.extractLsb' 0 8

/-- `IMM`, bits 15:0; it overlays `B` and `C`. -/
def fieldImm (w : CommandWord) : HalfPeriod := w.extractLsb' 0 16

/-- `ND`, bit 0; it overlays `C[0]`. -/
def fieldNd (w : CommandWord) : Bool := w.getLsbD 0

/-- The instruction if the bits its format requires to be zero are zero (R81, R85). -/
def ifZero (reserved : Bool) (i : Instr) : Except Illegal Instr :=
  if reserved then .ok i else .error .reservedBits

/-- The decoder (R81, R82, R83): the operation code picks the format, the format names the bits that
must be zero. -/
def decode (w : CommandWord) : Except Illegal Instr :=
  match (fieldOpc w).toNat with
  | 0x00 => ifZero (w.extractLsb' 0 24 == 0) .beBegin
  | 0x01 => ifZero (w.extractLsb' 16 8 == 0) (.beSethp (fieldImm w))
  | 0x02 => ifZero (!fieldZ23 w && w.extractLsb' 0 16 == 0) (.beProbe (fieldA w))
  | 0x03 => ifZero (!fieldZ23 w) (.beWr8 (fieldA w) (fieldB w) (fieldC w))
  | 0x04 => ifZero (!fieldZ23 w && w.extractLsb' 1 7 == 0) (.beRd8 (fieldA w) (fieldB w) (fieldNd w))
  | 0x10 => ifZero (w.extractLsb' 0 24 == 0) .dcBegin
  | 0x11 => ifZero (w.extractLsb' 8 16 == 0) (.dcSellib (fieldC w))
  | 0x12 => ifZero (w.extractLsb' 8 16 == 0) (.dcSetmode (fieldC w))
  | 0x13 => ifZero (w.extractLsb' 16 8 == 0) (.dcSetwave (fieldB w) (fieldC w))
  | 0x14 => ifZero (w.extractLsb' 0 24 == 0) .dcGo
  | 0x15 => ifZero (w.extractLsb' 0 24 == 0) .dcRdstatus
  | 0x16 => ifZero (w.extractLsb' 0 24 == 0) .dcIsconn
  | _ => .error .unknownOpcode

/-- The word with the fields of R81, `Z23` zero. -/
def packWord (opc : Byte) (a : BusAddr) (b c : Byte) : CommandWord := opc ++ 0#1 ++ a ++ b ++ c

/-- The encoder: the word column of R95 over the fields of R81; every unused field is zero. -/
def encode : Instr → CommandWord
  | .beBegin => packWord 0x00 0 0 0
  | .beSethp us => packWord 0x01 0 (us.extractLsb' 8 8) (us.extractLsb' 0 8)
  | .beProbe addr => packWord 0x02 addr 0 0
  | .beWr8 addr reg val => packWord 0x03 addr reg val
  | .beRd8 addr reg nd => packWord 0x04 addr reg (if nd then 1 else 0)
  | .dcBegin => packWord 0x10 0 0 0
  | .dcSellib id => packWord 0x11 0 0 id
  | .dcSetmode mode => packWord 0x12 0 0 mode
  | .dcSetwave slot effect => packWord 0x13 0 slot effect
  | .dcGo => packWord 0x14 0 0 0
  | .dcRdstatus => packWord 0x15 0 0 0
  | .dcIsconn => packWord 0x16 0 0 0

/-- The command word that spec/opcode_table.json's numbering calls `w`: the table's bits are the
word's, and bits above the first `nbits` are zero. -/
def tableWord (nbits w : Nat) : CommandWord := BitVec.ofNat 32 (w % 2 ^ nbits)

/-- What the decoder reads from an instruction numbered as spec/opcode_table.json numbers it. -/
def decodeTableWord (nbits w : Nat) : Option Instr := (decode (tableWord nbits w)).toOption

end Sys2Proof
end

