-- ==== Sys2Proof/Config.lean ====
section
/-! DEFINITION. What construction fixes (R7), what the spec leaves open, and the micro-op alphabet in
which the open slave is asked (R13, R33, R120). -/

namespace Sys2Proof

/-- The six line micro-ops (R120), as a trace records them: `SMP` carries the bit it returned (R13),
`false` for a low data wire. -/
inductive MicroOp where
  /-- `SCL_HI`, code `CH`. -/
  | sclHi
  /-- `SCL_LO`, code `CL`. -/
  | sclLo
  /-- `SDA_LO`, code `DL`. -/
  | sdaLo
  /-- `SDA_REL`, code `DR`. -/
  | sdaRel
  /-- `SMP`, code `S=b`. -/
  | smp (level : Bool)
  /-- `W`, code `W`. -/
  | wait
  deriving DecidableEq, Repr, Inhabited

/-- The parameter `TOPOLOGY` (R7, R142): a build-time choice with no default. -/
inductive Topology where
  /-- Eccentric rotating mass, open loop. -/
  | ermOpen
  /-- Linear resonant, closed loop. -/
  | lraClosed
  deriving DecidableEq, Repr, Inhabited

/-- The parameter `STALL_MODEL` (R7, R164; decision D22). -/
inductive StallModel where
  /-- Every sample completes. -/
  | none
  /-- A sample may never complete. -/
  | sampleMayHang
  deriving DecidableEq, Repr, Inhabited

/-- The bit of `0x1A` and the bit of `0x1D` that `DC.BEGIN` forces, and what it forces them to (R7,
R142).  A mask "has exactly one bit set", so the bit's number stands for it: no other mask can be
written (`Params.fbMask`, `Params.c3Mask` give the bytes). -/
structure ForcedBits where
  /-- The number of the one bit of `FB_MASK`. -/
  fbBit : Fin 8
  /-- `FB_SET`. -/
  fbSet : Bool
  /-- The number of the one bit of `C3_MASK`. -/
  c3Bit : Fin 8
  /-- `C3_SET`. -/
  c3Set : Bool
  deriving DecidableEq, Repr, Inhabited

/-- The construction constants of R7.  They are parameters of the step, not state: no command changes
them; the State carries them so that a claim quantifies over them (log entry 1). -/
structure Params where
  /-- `PIN_SCL`, an opaque identifier (R22). -/
  pinScl : Nat
  /-- `PIN_SDA`, an opaque identifier that differs from `PIN_SCL` (R7). -/
  pinSda : Nat
  /-- `HP_DEFAULT`. -/
  hpDefault : HalfPeriod
  /-- `DEVADDR` (decision D28). -/
  devAddr : BusAddr
  /-- `TOPOLOGY`. -/
  topology : Topology
  /-- What the topology `ERM_OPEN` forces. -/
  ermOpen : ForcedBits
  /-- What the topology `LRA_CLOSED` forces. -/
  lraClosed : ForcedBits
  /-- `EFFECT_DEFAULT` (decision D15). -/
  effectDefault : Byte
  /-- `AUDIOMAX_DEFAULT` (decision D15). -/
  audioMaxDefault : Byte
  /-- `STALL_MODEL`. -/
  stallModel : StallModel
  deriving DecidableEq, Repr, Inhabited

namespace Config

/-- `PIN_SCL` is OPEN (R7, N2). -/
opaque pinScl : Nat

/-- Any identifier; `pinSda` makes it differ from `pinScl`. -/
opaque pinSdaRaw : Nat

/-- `PIN_SDA` is OPEN and differs from `PIN_SCL` (R7): every pair of distinct pins is some value of
`pinScl` and `pinSdaRaw`. -/
def pinSda : Nat := if pinSdaRaw = pinScl then pinScl + 1 else pinSdaRaw

/-- `TOPOLOGY` is OPEN with no default (R142; decision D16). -/
opaque topology : Topology

/-- The forced bits of `ERM_OPEN` are OPEN (R142; N8). -/
opaque ermOpen : ForcedBits

/-- The forced bits of `LRA_CLOSED` are OPEN (R142; N8). -/
opaque lraClosed : ForcedBits

/-- `EFFECT_DEFAULT` is OPEN (R7; N8). -/
opaque effectDefault : Byte

/-- `AUDIOMAX_DEFAULT` is OPEN (R7; N8). -/
opaque audioMaxDefault : Byte

/-- The slave of R33: an oracle that, given the micro-ops so far (newest first), answers the next
`SMP`: `false` when the data wire is low.  A free value: nothing in the model knows it. -/
opaque slaveAnswer : List MicroOp → Bool

/-- How many samples complete before one never does (R164); read only under `sample_may_hang`. -/
opaque hangAfter : Option Nat

/-- The construction constants of the block as R7 gives them: 5 microseconds, address `0x5A`, no
stall; the rest OPEN. -/
def params : Params where
  pinScl := pinScl
  pinSda := pinSda
  hpDefault := 5
  devAddr := 0x5A
  topology := topology
  ermOpen := ermOpen
  lraClosed := lraClosed
  effectDefault := effectDefault
  audioMaxDefault := audioMaxDefault
  stallModel := .none

end Config

end Sys2Proof
end

