-- ==== Sys2Proof/Machine/State.lean ====
section
/-! DEFINITION. The state of TWBM as plain data (R20), with its environment (R33), its instrumentation
(R36) and the words the host has still to give. -/

namespace Sys2Proof.Machine

/-- A memory: (address, byte) pairs with rising addresses, none holding what an unlisted address reads
as, which is `0x00` (R62). -/
abbrev Memory := List Host.Cell

/-- The mode of the clock pin (R23). -/
inductive SclMode where
  /-- `BE.BEGIN` has not run since reset. -/
  | unconf
  /-- An actively driven output. -/
  | out
  deriving DecidableEq, Repr

/-- The mode of the data pin (R24): there is no mode that drives the line high. -/
inductive SdaMode where
  /-- `BE.BEGIN` has not run since reset. -/
  | unconf
  /-- Released: an input with a pull-up. -/
  | rel
  /-- An output at level 0. -/
  | low
  deriving DecidableEq, Repr

/-- The response latch (R28). -/
structure Resp where
  ok : Bool
  data : Byte
  deriving DecidableEq, Repr

/-- The reference slave (R62): test apparatus, not the chip (R67). -/
structure RefSlave where
  /-- `PRESENT`: a device is on the lines. -/
  present : Bool
  /-- `SA`, its address. -/
  sa : BusAddr
  /-- `RF`, its register file. -/
  rf : Memory
  /-- `RO`, its read-only register numbers. -/
  ro : List Byte
  /-- `PTR`, the register pointer. -/
  ptr : Byte
  /-- `SEL`: addressed in the current transaction. -/
  sel : Bool
  /-- `DIR`, the direction latched from the address byte; `true` is read. -/
  dir : Bool
  /-- `CNT`, the bytes received since the last start condition. -/
  cnt : Nat
  deriving DecidableEq, Repr

/-- The device on the two lines (R33). -/
inductive Slave where
  /-- An oracle: the answers listed come first, then those of `Config.slaveAnswer`.  With nothing
  listed it is the open slave; a list long enough is any oracle's answers along one run. -/
  | oracle (script : List Bool)
  /-- The reference slave of R62 to R66. -/
  | reference (r : RefSlave)
  deriving DecidableEq, Repr

/-- The state: the table of R20, with the environment of R33 and the instrumentation of R36.  `IMM`
and `ND` overlay `B` and `C` (R27): they are computed (`State.imm`, `State.nd`), not stored twice. -/
structure State where
  /-- The construction constants of R7; no step writes them. -/
  par : Params
  /-- `HP` (R21). -/
  hp : HalfPeriod
  /-- `SCLM` (R23). -/
  sclm : SclMode
  /-- `SCLO` (R23); `true` is high. -/
  sclo : Bool
  /-- `SDAM` (R24). -/
  sdam : SdaMode
  /-- `OPC` (R27). -/
  opc : Byte
  /-- `A` (R27). -/
  a : BusAddr
  /-- `B` (R27). -/
  b : Byte
  /-- `C` (R27). -/
  c : Byte
  /-- `RESP` (R28). -/
  resp : Resp
  /-- `UPC` (R29). -/
  upc : Nat
  /-- `SH` (R30). -/
  sh : Byte
  /-- `BITI` (R30). -/
  biti : BitVec 4
  /-- `ACKF` (R30, R34). -/
  ackf : Bool
  /-- `BUSY` (R31). -/
  busy : Bool
  /-- `TR` (R36), the newest micro-op first. -/
  tr : List MicroOp
  /-- `T` (R36), in microseconds. -/
  t : Nat
  /-- The slave (R33). -/
  slave : Slave
  /-- How many samples complete before one never does (R164); read only under `sample_may_hang`. -/
  hangAfter : Option Nat
  /-- The command words the host gives next, the first one first (R6, R80): the model's own field,
  standing for the host agent. -/
  offered : List CommandWord
  deriving DecidableEq, Repr

/-- The reasons a step could fault.  There are none: "No operation of this hardware raises an exception"
in R12's sense, a failing command completes with `RESP = (0, 0x00)` (R160), there is no interrupt and
no trap (R167), and a stall is a state, `BUSY` staying 1, in which the step changes nothing (R164,
R31).  So no definition raises a fault; that the type is empty is safe. -/
inductive Fault where
  deriving DecidableEq, Repr

/-- The reasons a step is refused. -/
inductive Refusal where
  /-- Raised by `exec`'s arm of a command that has no meaning yet.  Safe. -/
  | notModelled (mnemonic : String)
  /-- Raised by a command that transfers when the lines are not in the idle line state, which between
  commands means that `BE.BEGIN` has not run: cause `NOT_BEGUN` (R161), "a model *refuses*" (R166 (a),
  R110, R140).  Safe. -/
  | notBegun
  /-- Raised by `BE.BEGIN` when the lines are configured already (R111, R166 (b)).  Safe. -/
  | begunTwice
  deriving DecidableEq, Repr

/-- The outcome of a command or a step. -/
abbrev Result := Host.Outcome State Fault Refusal

/-- The block right after construction (R37, R190) with the given constants, slave and samples until
a hang.  R37 leaves `SCLO`, the operand latches, `RESP`, `SH`, `BITI` and `ACKF` unspecified: they are
zero here (log entry 3). -/
def State.construct (par : Params) (slave : Slave) (hangAfter : Option Nat) : State where
  par := par
  hp := par.hpDefault
  sclm := .unconf
  sclo := false
  sdam := .unconf
  opc := 0
  a := 0
  b := 0
  c := 0
  resp := ⟨false, 0⟩
  upc := 0
  sh := 0
  biti := 0
  ackf := false
  busy := false
  tr := []
  t := 0
  slave := slave
  hangAfter := hangAfter
  offered := []

/-- The machine right after reset (R37): constants as R7 gives them, the open slave, no word given. -/
def State.reset : State := State.construct Config.params (.oracle []) Config.hangAfter

end Sys2Proof.Machine
end

