-- ==== Sys2Proof/Machine/Flags.lean ====
section
/-! DEFINITION. The condition values of R34, the causes of failure of R161, and the response (R28, R86). -/

namespace Sys2Proof.Machine

/-- `ACKF <- (s = 0)`: "low means acknowledged" (R129, R34). -/
def ackOfSample (level : Bool) : Bool := !level

/-- The causes of R161.  The hardware records none of them (decision D32); a transfer's result names
one inside the model only. -/
inductive Cause where
  /-- The write-address byte was not acknowledged. -/
  | nackAddrW
  /-- The register-number byte was not acknowledged. -/
  | nackReg
  /-- The value byte was not acknowledged. -/
  | nackData
  /-- The read-address byte was not acknowledged. -/
  | nackAddrR
  /-- A read without a destination (R163). -/
  | nullDest
  /-- A sample that never completes: in the model the state in which `BUSY` stays 1 (R164). -/
  | stall
  /-- An illegal command word (R165). -/
  | illegalCmd
  /-- A command outside its precondition: in the model a refusal (R166). -/
  | notBegun
  deriving DecidableEq, Repr

/-- The codes of R161. -/
def causeCode : Cause → Nat
  | .nackAddrW => 1
  | .nackReg => 2
  | .nackData => 3
  | .nackAddrR => 4
  | .nullDest => 5
  | .stall => 6
  | .illegalCmd => 7
  | .notBegun => 8

/-- The response of an operation that returns nothing (R28). -/
def respDone : Resp := ⟨true, 0x00⟩

/-- The response of every failure (R28, R160). -/
def respFail : Resp := ⟨false, 0x00⟩

/-- The response of an operation that returns a `bool` (R28). -/
def respBool (k : Bool) : Resp := ⟨k, 0x00⟩

/-- The response of a register write: `ok` iff nothing failed (R114). -/
def respOfWrite : Except Cause Unit → Resp
  | .ok _ => respDone
  | .error _ => respFail

/-- The response of a register read: the byte, or a failure (R115). -/
def respOfRead : Except Cause Byte → Resp
  | .ok d => ⟨true, d⟩
  | .error _ => respFail

/-- The response word: bits 15:9 zero, bit 8 `ok`, bits 7:0 `data` (R86). -/
def responseWord (r : Resp) : ResponseWord := 0#7 ++ BitVec.ofBool r.ok ++ r.data

end Sys2Proof.Machine
end

