-- ==== Sys2Proof/Machine/Operands.lean ====
section
/-! DEFINITION. Operand forms and the arithmetic of the block (R119): the operand latches' views, the
address byte, the waveform register, `force`, and the numbers fixed inside the Device Controller. -/

namespace Sys2Proof.Machine

/-- `IMM`: it overlays `B` (high byte) and `C` (low byte) (R27, R81). -/
def State.imm (s : State) : HalfPeriod := s.b ++ s.c

/-- `ND`: it overlays `C[0]` (R27, R81). -/
def State.nd (s : State) : Bool := s.c.getLsbD 0

/-- `AB(A, d)`, the address byte: the address in bits 7:1, the direction in bit 0 (R84); `read` is
`d = 1`. -/
def addressByte (addr : BusAddr) (read : Bool) : Byte := addr ++ BitVec.ofBool read

/-- `force(v, m, s)` (R142). -/
def force (v m : Byte) (s : Bool) : Byte := (v &&& ~~~m) ||| (if s then m else 0x00)

/-- The byte with exactly bit `i` set. -/
def bitMask (i : Fin 8) : Byte := 1#8 <<< i.val

/-- What the topology fixes together (R142). -/
def forcedBits (p : Params) : ForcedBits :=
  match p.topology with
  | .ermOpen => p.ermOpen
  | .lraClosed => p.lraClosed

/-- `FB_MASK` (R7). -/
def fbMask (p : Params) : Byte := bitMask (forcedBits p).fbBit

/-- `FB_SET` (R7). -/
def fbSet (p : Params) : Bool := (forcedBits p).fbSet

/-- `C3_MASK` (R7). -/
def c3Mask (p : Params) : Byte := bitMask (forcedBits p).c3Bit

/-- `C3_SET` (R7). -/
def c3Set (p : Params) : Bool := (forcedBits p).c3Set

/-- The register of a waveform slot operand, `0x04 + slot` (R93, R146). -/
def waveRegister (slot : Byte) : Byte := 0x04 + slot

/-! The register numbers of R52. -/

def regStatus : Byte := 0x00
def regMode : Byte := 0x01
def regRtpin : Byte := 0x02
def regLibsel : Byte := 0x03
def regWaveseq1 : Byte := 0x04
def regWaveseq2 : Byte := 0x05
def regWaveseq3 : Byte := 0x06
def regWaveseq4 : Byte := 0x07
def regWaveseq5 : Byte := 0x08
def regWaveseq6 : Byte := 0x09
def regWaveseq7 : Byte := 0x0A
def regWaveseq8 : Byte := 0x0B
def regGo : Byte := 0x0C
def regOdt : Byte := 0x0D
def regSpt : Byte := 0x0E
def regSnt : Byte := 0x0F
def regBrt : Byte := 0x10
def regAudiomax : Byte := 0x13
def regFeedback : Byte := 0x1A
def regControl3 : Byte := 0x1D

/-! The mode codes of R92: opaque to the block, which sends any byte it is given. -/

def modeInttrig : Byte := 0x00
def modeExttrigedge : Byte := 0x01
def modeExttriglvl : Byte := 0x02
def modePwmanalog : Byte := 0x03
def modeAudiovibe : Byte := 0x04
def modeRealtime : Byte := 0x05
def modeDiagnos : Byte := 0x06
def modeAutocal : Byte := 0x07

end Sys2Proof.Machine
end

