-- ==== Sys2Proof/Machine/Memory.lean ====
section
/-! DEFINITION. The one byte memory of the model: the reference slave's register file (R51, R62).  The
block itself has none (R50). -/

namespace Sys2Proof.Machine

/-- The canonical form: addresses strictly rising and inside the 8-bit register space (R50), no cell
holding what an unlisted address reads as. -/
abbrev Memory.wf (m : Memory) : Prop :=
  m.Pairwise (fun x y => x.1 < y.1) ∧ ∀ x ∈ m, x.1 < 256 ∧ x.2 ≠ 0

/-- The byte at a register number; one that is not listed reads `0x00` (R62). -/
def Memory.read : Memory → Byte → Byte
  | [], _ => 0
  | (k, x) :: m, r => if k = r.toNat then x else Memory.read m r

/-- A cell before the rest of a memory, unless it holds what an unlisted address reads as. -/
def Memory.cons (k : Nat) (v : Byte) (m : Memory) : Memory := if v = 0 then m else (k, v) :: m

/-- Stores a byte at a register number and keeps the canonical form. -/
def Memory.write : Memory → Byte → Byte → Memory
  | [], r, v => Memory.cons r.toNat v []
  | (k, x) :: m, r, v =>
    if r.toNat < k then Memory.cons r.toNat v ((k, x) :: m)
    else if r.toNat = k then Memory.cons k v m
    else (k, x) :: Memory.write m r v

end Sys2Proof.Machine
end

