-- ==== Sys2Proof/Machine/Slave.lean ====
section
/-! DEFINITION. The environment: what answers the micro-op `SMP` (R33), and the reference slave's rules
(R62 to R65). -/

namespace Sys2Proof.Machine

/-- Which sample the master takes: the acknowledgement sample after writing byte `b` (R129), or the
sample of bit cell `i` of a byte read (R130).  An oracle sees the same in the micro-ops so far. -/
inductive Query where
  | ack (b : Byte)
  | data (i : Nat)
  deriving DecidableEq, Repr

/-- The reference slave as R62 gives it when a vector says nothing else. -/
def RefSlave.default : RefSlave := ⟨true, 0x5A, [], [0x00], 0x00, false, false, 0⟩

/-- The master completed a start condition, first or repeated (R63). -/
def RefSlave.onStart (r : RefSlave) : RefSlave := { r with cnt := 0, sel := false }

/-- The master completed a stop condition (R63). -/
def RefSlave.onStop (r : RefSlave) : RefSlave := { r with sel := false, cnt := 0 }

/-- A data byte reaches the register the pointer names, unless it is read-only (R64). -/
def RefSlave.store (r : RefSlave) (b : Byte) : RefSlave :=
  if r.ptr ∈ r.ro then r else { r with rf := r.rf.write r.ptr b }

/-- The answer to the acknowledgement sample after byte `b` (R64): the level of the line, `false` for
an acknowledgement. -/
def RefSlave.onAck (r : RefSlave) (b : Byte) : Bool × RefSlave :=
  if !r.present then (true, r)
  else if r.cnt = 0 then
    if b.extractLsb' 1 7 = r.sa then (false, { r with cnt := 1, sel := true, dir := b.getLsbD 0 })
    else (true, { r with cnt := 1, sel := false })
  else if !r.sel || r.dir then (true, r)
  else if r.cnt = 1 then (false, { r with ptr := b, cnt := 2 })
  else (false, { r.store b with cnt := r.cnt + 1 })

/-- The answer to the sample of bit cell `i` of a byte read (R65). -/
def RefSlave.onData (r : RefSlave) (i : Nat) : Bool :=
  if r.present && r.sel && r.dir then (r.rf.read r.ptr).getLsbD i else true

/-- What the slave makes of a start condition. -/
def Slave.onStart : Slave → Slave
  | .oracle script => .oracle script
  | .reference r => .reference r.onStart

/-- What the slave makes of a stop condition. -/
def Slave.onStop : Slave → Slave
  | .oracle script => .oracle script
  | .reference r => .reference r.onStop

/-- The slave's answer to a sample, given the micro-ops so far: `true` if it leaves the line
released (R33, R125). -/
def Slave.answer (tr : List MicroOp) (q : Query) : Slave → Bool × Slave
  | .oracle [] => (Config.slaveAnswer tr, .oracle [])
  | .oracle (x :: script) => (x, .oracle script)
  | .reference r =>
    match q with
    | .ack b => ((r.onAck b).1, .reference (r.onAck b).2)
    | .data i => (r.onData i, .reference r)

end Sys2Proof.Machine
end

