-- ==== Sys2Proof/Machine/Ops.lean ====
section
/-! DEFINITION. The line level: wires, micro-ops (R120 to R126), bus primitives (R127 to R130), and how a
command is accepted, completes and fails (R27, R28, R31, R160, R169). -/

namespace Sys2Proof.Machine

/-- The sample that never completes (R164): the sequencer's only way not to go on. -/
inductive Hang where
  | sample
  deriving DecidableEq, Repr

/-- A piece of a micro-sequence: it runs from a state and ends with a value, or hangs in a sample and
leaves the state it hangs in. -/
abbrev Proc := EStateM Hang State

/-! ### The wires (R23, R25) -/

/-- The level of the clock wire; unspecified before `BE.BEGIN` (R23). -/
def sclWire (s : State) : Option Bool :=
  match s.sclm with
  | .unconf => none
  | .out => some s.sclo

/-- The level of the data wire, a wired-AND of the two parties; unspecified before `BE.BEGIN` (R25). -/
def sdaWire (s : State) (slavePulls : Bool) : Option Bool :=
  match s.sdam with
  | .unconf => none
  | .low => some false
  | .rel => some (!slavePulls)

/-- The idle line state: `SCLM = OUT`, `SCLO = 1`, `SDAM = REL` (R26). -/
def linesIdle (s : State) : Bool := s.sclm == .out && s.sclo && s.sdam == .rel

/-! ### Micro-ops -/

/-- A micro-op's own bookkeeping: `UPC` advances by 1 and the micro-op joins the trace (R120, R29, R36). -/
def record (op : MicroOp) (s : State) : State := { s with upc := s.upc + 1, tr := op :: s.tr }

/-- `SCL_HI` (R121). -/
def sclHi : Proc Unit := fun s => .ok () (record .sclHi { s with sclo := true })

/-- `SCL_LO` (R122). -/
def sclLo : Proc Unit := fun s => .ok () (record .sclLo { s with sclo := false })

/-- `SDA_LO` (R123): one indivisible step (decision D30). -/
def sdaLo : Proc Unit := fun s => .ok () (record .sdaLo { s with sdam := .low })

/-- `SDA_REL` (R124). -/
def sdaRel : Proc Unit := fun s => .ok () (record .sdaRel { s with sdam := .rel })

/-- `W` (R126): `T` grows by the half-period read at the moment of the wait. -/
def wait : Proc Unit := fun s => .ok () (record .wait { s with t := s.t + s.hp.toNat })

/-- Whether the next sample never completes (R164). -/
def sampleHangs (s : State) : Bool := s.par.stallModel == .sampleMayHang && s.hangAfter == some 0

/-- The state after one more sample has completed, as far as the hang is concerned. -/
def countSample (s : State) : Option Nat :=
  if s.par.stallModel == .sampleMayHang then s.hangAfter.map (· - 1) else s.hangAfter

/-- The level a sample finds when the slave answers `released`: the data wire's (R25, R125).  In a mode
in which the wire's level is unspecified, which no command reaches (R134), it is the slave's answer. -/
def sampleLevel (s : State) (released : Bool) : Bool := (sdaWire s (!released)).getD released

/-- `SMP` (R125, R164): the data wire's level; no state of the block changes but the bookkeeping.  A
sample that hangs leaves the state as it was. -/
def smp (q : Query) : Proc Bool := fun s =>
  if sampleHangs s then .error .sample s
  else
    let ans := s.slave.answer s.tr q
    let level := sampleLevel s ans.1
    .ok level (record (.smp level) { s with slave := ans.2, hangAfter := countSample s })

/-! ### Sequencer temporaries (R30) -/

/-- `SH <- b`. -/
def putSh (b : Byte) : Proc Unit := fun s => .ok () { s with sh := b }

/-- `SH`. -/
def getSh : Proc Byte := fun s => .ok s.sh s

/-- `BITI <- i`. -/
def putBiti (i : Nat) : Proc Unit := fun s => .ok () { s with biti := BitVec.ofNat 4 i }

/-- `ACKF <- k`. -/
def putAckf (k : Bool) : Proc Unit := fun s => .ok () { s with ackf := k }

/-- `SH[i] <- v`. -/
def withBit (x : Byte) (i : Nat) (v : Bool) : Byte :=
  if v then x ||| (1#8 <<< i) else x &&& ~~~(1#8 <<< i)

/-- "`for i in 7 downto 0`": 7, 6, 5, 4, 3, 2, 1, 0 in that order (R12). -/
def bitOrder : List Nat := [7, 6, 5, 4, 3, 2, 1, 0]

/-! ### What the slave sees of the conditions (R63); no micro-op -/

def slaveStart : Proc Unit := fun s => .ok () { s with slave := s.slave.onStart }

def slaveStop : Proc Unit := fun s => .ok () { s with slave := s.slave.onStop }

/-! ### Bus primitives -/

/-- `START()` (R127), also the repeated start (R133). -/
def start : Proc Unit := do
  sdaRel
  sclHi
  sdaLo
  wait
  sclLo
  slaveStart

/-- `STOP()` (R128). -/
def stop : Proc Unit := do
  sdaLo
  wait
  sclHi
  sdaRel
  wait
  slaveStop

/-- Drives bit `BITI` of `SH` on the data line: low for 0, released for 1 (R88, R129). -/
def driveBit (i : Nat) : Proc Unit := do
  let sh ← getSh
  if sh.getLsbD i then sdaRel else sdaLo

/-- One data cell of a byte write (R129). -/
def writeCell (i : Nat) : Proc Unit := do
  putBiti i
  driveBit i
  wait
  sclHi
  wait
  sclLo

/-- The data cells of a byte write, in the order given. -/
def writeCells : List Nat → Proc Unit
  | [] => pure ()
  | i :: is => do
    writeCell i
    writeCells is

/-- The acknowledgement cell of a byte write (R129): the sample comes at the end of the high phase
(decisions D6, D7). -/
def ackCell (b : Byte) : Proc Bool := do
  sdaRel
  wait
  sclHi
  wait
  let s ← smp (.ack b)
  sclLo
  putAckf (ackOfSample s)
  return ackOfSample s

/-- `WBYTE(b)` (R129): `true` iff the byte was acknowledged. -/
def wbyte (b : Byte) : Proc Bool := do
  putSh b
  writeCells bitOrder
  ackCell b

/-- One data cell of a byte read (R130, decisions D6, D7). -/
def readCell (i : Nat) : Proc Unit := do
  putBiti i
  wait
  sclHi
  wait
  let v ← smp (.data i)
  let sh ← getSh
  putSh (withBit sh i v)
  sclLo

/-- The data cells of a byte read, in the order given. -/
def readCells : List Nat → Proc Unit
  | [] => pure ()
  | i :: is => do
    readCell i
    readCells is

/-- The master's acknowledgement cell after a byte read (R130, decision D8). -/
def masterAckCell (sendAck : Bool) : Proc Unit := do
  if sendAck then sdaLo else sdaRel
  wait
  sclHi
  wait
  sclLo
  sdaRel

/-- `RBYTE(sendAck)` (R130): the byte sampled. -/
def rbyte (sendAck : Bool) : Proc Byte := do
  sdaRel
  putSh 0x00
  readCells bitOrder
  masterAckCell sendAck
  getSh

/-! ### A command's acceptance and completion -/

/-- Acceptance of a command word: the operand latches are loaded from its fields and the block is busy
(R27, R31, R81). -/
def accept (w : CommandWord) (s : State) : State :=
  { s with opc := fieldOpc w, a := fieldA w, b := fieldB w, c := fieldC w, busy := true, upc := 0 }

/-- Completion: `RESP` is written and the block is idle again (R28, R31, R169). -/
def complete (r : Resp) (s : State) : State := { s with resp := r, busy := false, upc := 0 }

/-- What the host finds when it offers a command: the command runs to its response, or hangs in a
sample with `BUSY` at 1 and `RESP` unwritten (R164).  While the block is busy the word is not accepted
and has no effect (R31). -/
def runCommand (w : CommandWord) (body : Proc Resp) (s : State) : Result :=
  if s.busy then .next s
  else
    match body (accept w s) with
    | .ok r t => .next (complete r t)
    | .error _ t => .next t

/-- The same for a command that transfers: its precondition is the idle line state (R110, R140), and
before `BE.BEGIN` the model refuses it (R166). -/
def runTransfer (w : CommandWord) (body : Proc Resp) (s : State) : Result :=
  if s.busy then .next s
  else if linesIdle s then runCommand w body s
  else .refused .notBegun

/-- An illegal word is not executed: the block answers `(0, 0x00)` and nothing else changes (R85,
R165). -/
def rejectWord (s : State) : State := { s with resp := respFail }

end Sys2Proof.Machine
end

