-- ==== Sys2Proof/Machine/Transfers.lean ====
section
/-! DEFINITION. The three frames of R87 as the Bus Engine and the Device Controller use them: each is one
transaction from the idle line state to the idle line state, and yields its result without writing
`RESP` (R140). -/

namespace Sys2Proof.Machine

/-- The frame of `BE.PROBE` (R113): `true` iff the device acknowledged. -/
def probe (addr : BusAddr) : Proc Bool := do
  start
  let k ← wbyte (addressByte addr false)
  stop
  return k

/-- A frame ends at once after a missing acknowledgement (R116). -/
def abort {α : Type} (why : Cause) : Proc (Except Cause α) := do
  stop
  return .error why

/-- The frame of `BE.WR8` (R114). -/
def writeRegister (addr : BusAddr) (reg val : Byte) : Proc (Except Cause Unit) := do
  start
  if ← wbyte (addressByte addr false) then
    if ← wbyte reg then
      if ← wbyte val then
        stop
        return .ok ()
      else abort .nackData
    else abort .nackReg
  else abort .nackAddrW

/-- The frame of `BE.RD8` with a destination (R115): the repeated start is `start` again (R133), and
the master always ends the byte with a not-acknowledge. -/
def readRegister (addr : BusAddr) (reg : Byte) : Proc (Except Cause Byte) := do
  start
  if ← wbyte (addressByte addr false) then
    if ← wbyte reg then
      start
      if ← wbyte (addressByte addr true) then
        let d ← rbyte false
        stop
        return .ok d
      else abort .nackAddrR
    else abort .nackReg
  else abort .nackAddrW

end Sys2Proof.Machine
end

