-- ==== Sys2Proof/Machine/BusEngine.lean ====
section
/-! DEFINITION. The five Bus Engine commands (R110 to R115). -/

namespace Sys2Proof.Machine

/-- `SCLM <- OUT` (R111). -/
def configureClock : Proc Unit := fun s => .ok () { s with sclm := .out }

/-- `HP <- us` (R112). -/
def putHp (us : HalfPeriod) : Proc Unit := fun s => .ok () { s with hp := us }

/-- The steps of `BE.BEGIN` in the order of decision D9. -/
def beginLines : Proc Resp := do
  configureClock
  sclHi
  sdaRel
  return respDone

/-- `BE.BEGIN` (R111): only from unconfigured lines; a second one is refused (R166). -/
def execBeBegin (s : State) : Result :=
  if s.busy then .next s
  else if s.sclm == .unconf && s.sdam == .unconf then runCommand (encode .beBegin) beginLines s
  else .refused .begunTwice

/-- `BE.SETHP us` (R112): no micro-op, and no precondition beyond idle. -/
def execBeSethp (us : HalfPeriod) (s : State) : Result :=
  runCommand (encode (.beSethp us)) (do putHp us; return respDone) s

/-- `BE.PROBE addr` (R113). -/
def execBeProbe (addr : BusAddr) (s : State) : Result :=
  runTransfer (encode (.beProbe addr)) (do let k ← probe addr; return respBool k) s

/-- `BE.WR8 addr, reg, val` (R114). -/
def execBeWr8 (addr : BusAddr) (reg val : Byte) (s : State) : Result :=
  runTransfer (encode (.beWr8 addr reg val)) (do let x ← writeRegister addr reg val; return respOfWrite x) s

/-- `BE.RD8 addr, reg` (R115): the null destination is found first, before any line activity and
before the precondition of a transfer (R163, R168). -/
def execBeRd8 (addr : BusAddr) (reg : Byte) (nd : Bool) (s : State) : Result :=
  if nd then runCommand (encode (.beRd8 addr reg nd)) (pure (respOfRead (.error .nullDest))) s
  else runTransfer (encode (.beRd8 addr reg nd)) (do let x ← readRegister addr reg; return respOfRead x) s

end Sys2Proof.Machine
end

