-- ==== Sys2Proof/Machine/DeviceController.lean ====
section
/-! DEFINITION. The seven Device Controller commands (R140 to R149): fixed compositions of Bus Engine
frames to the constant address `DEVADDR`, with no state of their own (R32). -/

namespace Sys2Proof.Machine

/-- `wr(r, v)` (R140). -/
def wr (p : Params) (r v : Byte) : Proc (Except Cause Unit) := writeRegister p.devAddr r v

/-- `rd(r)` (R140). -/
def rd (p : Params) (r : Byte) : Proc (Except Cause Byte) := readRegister p.devAddr r

/-- A fire-and-forget write: the result is discarded (R172). -/
def wrDiscard (p : Params) (r v : Byte) : Proc Unit := do
  let _ ← wr p r v

/-- A write whose result is discarded, as a command of its own: the answer is always `(1, 0x00)`. -/
def wrDone (p : Params) (r v : Byte) : Proc Resp := do
  wrDiscard p r v
  return respDone

/-- The eight best-effort writes of `DC.BEGIN` in bus order (R141; decision D12). -/
def bestEffortWrites (p : Params) : List (Byte × Byte) :=
  [ (regRtpin, 0x00)
  , (regWaveseq1, p.effectDefault)
  , (regWaveseq2, 0x00)
  , (regOdt, 0x00)
  , (regSpt, 0x00)
  , (regSnt, 0x00)
  , (regBrt, 0x00)
  , (regAudiomax, p.audioMaxDefault) ]

/-- Fire-and-forget writes, one after another. -/
def wrEach (p : Params) : List (Byte × Byte) → Proc Unit
  | [] => pure ()
  | (r, v) :: rest => do
    wrDiscard p r v
    wrEach p rest

/-- Reads a register and, if the read succeeds, writes it back with one bit forced (R141, R142;
decisions D13, D14). -/
def rewrite (p : Params) (r m : Byte) (set : Bool) : Proc Unit := do
  match ← rd p r with
  | .ok f => wrDiscard p r (force f m set)
  | .error _ => pure ()

/-- What `DC.BEGIN` does once its first write succeeded (R141). -/
def configureChip (p : Params) : Proc Unit := do
  wrEach p (bestEffortWrites p)
  rewrite p regFeedback (fbMask p) (fbSet p)
  rewrite p regControl3 (c3Mask p) (c3Set p)

/-- The steps of `DC.BEGIN` (R141): the write of `MODE` is the only gate. -/
def initialise (p : Params) : Proc Resp := do
  match ← wr p regMode 0x00 with
  | .error why => return respOfWrite (.error why)
  | .ok _ =>
    configureChip p
    return respDone

/-- `DC.BEGIN` (R141). -/
def execDcBegin (s : State) : Result := runTransfer (encode .dcBegin) (initialise s.par) s

/-- `DC.SELLIB id` (R143): any byte is sent unchanged. -/
def execDcSellib (id : Byte) (s : State) : Result :=
  runTransfer (encode (.dcSellib id)) (wrDone s.par regLibsel id) s

/-- `DC.SETMODE mode` (R144): any byte is sent unchanged. -/
def execDcSetmode (mode : Byte) (s : State) : Result :=
  runTransfer (encode (.dcSetmode mode)) (wrDone s.par regMode mode) s

/-- `DC.SETWAVE slot, effect` (R145): for `slot > 7`, unsigned, nothing happens on the lines, and the
precondition of a transfer is not asked for (R166). -/
def execDcSetwave (slot effect : Byte) (s : State) : Result :=
  if 7 < slot.toNat then runCommand (encode (.dcSetwave slot effect)) (pure respDone) s
  else runTransfer (encode (.dcSetwave slot effect)) (wrDone s.par (waveRegister slot) effect) s

/-- `DC.GO` (R147). -/
def execDcGo (s : State) : Result := runTransfer (encode .dcGo) (wrDone s.par regGo 0x01) s

/-- `DC.RDSTATUS` (R148): its result always has a destination (decision D27). -/
def execDcRdstatus (s : State) : Result :=
  runTransfer (encode .dcRdstatus) (do let x ← rd s.par regStatus; return respOfRead x) s

/-- `DC.ISCONN` (R149). -/
def execDcIsconn (s : State) : Result :=
  runTransfer (encode .dcIsconn) (do let k ← probe s.par.devAddr; return respBool k) s

end Sys2Proof.Machine
end

