-- ==== Sys2Proof/Machine/Dispatch.lean ====
section
/-! DEFINITION. The meaning of each command, one arm for each constructor. -/

namespace Sys2Proof.Machine

-- Each arm calls the meaning in BusEngine.lean or DeviceController.lean.
def exec (i : Instr) (s : State) : Host.Outcome State Fault Refusal :=
  match i with
  | .beBegin => Sys2Proof.Machine.execBeBegin s
  | .beSethp us => Sys2Proof.Machine.execBeSethp us s
  | .beProbe addr => Sys2Proof.Machine.execBeProbe addr s
  | .beWr8 addr reg val => Sys2Proof.Machine.execBeWr8 addr reg val s
  | .beRd8 addr reg nd => Sys2Proof.Machine.execBeRd8 addr reg nd s
  | .dcBegin => Sys2Proof.Machine.execDcBegin s
  | .dcSellib id => Sys2Proof.Machine.execDcSellib id s
  | .dcSetmode mode => Sys2Proof.Machine.execDcSetmode mode s
  | .dcSetwave slot effect => Sys2Proof.Machine.execDcSetwave slot effect s
  | .dcGo => Sys2Proof.Machine.execDcGo s
  | .dcRdstatus => Sys2Proof.Machine.execDcRdstatus s
  | .dcIsconn => Sys2Proof.Machine.execDcIsconn s

end Sys2Proof.Machine
end

