-- ==== Sys2Proof/Machine/Fetch.lean ====
section
/-! DEFINITION. How the block takes the words the host offers (R6, R80, R85, R192). -/

namespace Sys2Proof.Machine

/-- What the block does with an offered word: a legal word runs its command, an illegal one is
rejected before anything else is checked (R85, R165, R168). -/
def runWord (w : CommandWord) (s : State) : Result :=
  match decode w with
  | .ok i => exec i s
  | .error _ => .next (rejectWord s)

/-- A busy block is stuck in a sample and accepts nothing (R31, R164); an idle block does nothing until
the host gives a command (R192); otherwise the first offered word is taken. -/
def takeWord (s : State) : Result :=
  if s.busy then .next s
  else
    match s.offered with
    | [] => .next s
    | w :: rest => runWord w { s with offered := rest }

/-- The host offers this word next; the handshake is idle, since a busy block accepts no word (log
entry 8). -/
def offerFirst (w : CommandWord) (s : State) : State :=
  { s with offered := w :: s.offered, busy := false, upc := 0 }

end Sys2Proof.Machine
end

