-- ==== Sys2Proof/Machine/Step.lean ====
section
/-! DEFINITION. One step of the machine, and the state in which the next step runs a given word. -/

namespace Sys2Proof.Machine

/-- One step: the block takes the next word the host offers and runs it (`takeWord`). -/
def step (s : State) : Host.Outcome State Fault Refusal := takeWord s

/-- The state in which the very next step takes the word that spec/opcode_table.json numbers `w`. -/
def State.withFetchWord (s : State) (nbits w : Nat) : State := offerFirst (tableWord nbits w) s

end Sys2Proof.Machine
end

