-- ==== Sys2Proof/Machine/Trace.lean ====
section
/-! DEFINITION. Views of the trace (R13): the micro-op trace in order, and the byte trace an observer of
the two lines derives from it.  Instrumentation: no rule of the block reads them (R36). -/

namespace Sys2Proof.Machine

/-- The micro-op trace, oldest first. -/
def trace (s : State) : List MicroOp := s.tr.reverse

/-- How many waits a trace holds. -/
def waits (ops : List MicroOp) : Nat := ops.count .wait

/-- How many samples a trace holds. -/
def samples (ops : List MicroOp) : Nat := ops.countP fun op => op matches .smp _

/-- The events of a byte trace (R13). -/
inductive BusEvent where
  /-- `S`: a start condition, first or repeated. -/
  | start
  /-- `P`: a stop condition. -/
  | stop
  /-- `Wxx/a`: a byte the master wrote, and whether it was acknowledged. -/
  | wrote (byte : Byte) (acked : Bool)
  /-- `Rxx/a`: a byte the master read, and whether it sent an acknowledgement. -/
  | read (byte : Byte) (acked : Bool)
  deriving DecidableEq, Repr

/-- One bit cell as an observer sees it: the level, and whether the master sampled it. -/
structure Cell where
  level : Bool
  sampled : Bool
  deriving DecidableEq, Repr

/-- An observer of the lines: the clock, whether the master pulls the data line low, the sample seen in
this clock-high phase, whether this phase is a clock pulse of a bit cell, and the cells of the byte
under way, the newest first. -/
structure Watch where
  scl : Bool
  low : Bool
  seen : Option Bool
  pulse : Bool
  cells : List Cell
  deriving DecidableEq, Repr

/-- The observer on idle lines (R26). -/
def Watch.idle : Watch := ⟨true, false, none, false, []⟩

/-- The value of bits given least significant first (R55: bit 0 travels last). -/
def byteOfBits (bits : List Bool) : Byte := BitVec.ofNat 8 (bits.foldr (fun v n => 2 * n + v.toNat) 0)

/-- The byte of nine cells (R8, R89): eight bits and the acknowledgement, low for acknowledged.  The
master samples the bits of a byte it reads. -/
def byteEvent : List Cell → Option BusEvent
  | ack :: bit0 :: rest =>
    if rest.length = 7 then
      let byte := byteOfBits ((bit0 :: rest).map (·.level))
      if bit0.sampled then some (.read byte (!ack.level)) else some (.wrote byte (!ack.level))
    else none
  | _ => none

/-- One micro-op seen by the observer, and the event it completes (R90): the data line falling or
rising while the clock is high is a start or a stop, and each other clock pulse is a bit cell. -/
def Watch.see (o : Watch) : MicroOp → Watch × Option BusEvent
  | .wait => (o, none)
  | .smp v => ({ o with seen := some v }, none)
  | .sclHi => if o.scl then (o, none) else ({ o with scl := true, seen := none, pulse := true }, none)
  | .sdaLo =>
    if o.scl && !o.low then ({ o with low := true, pulse := false, cells := [] }, some .start)
    else ({ o with low := true }, none)
  | .sdaRel =>
    if o.scl && o.low then ({ o with low := false, pulse := false, cells := [] }, some .stop)
    else ({ o with low := false }, none)
  | .sclLo =>
    if o.scl && o.pulse then
      let cells := ⟨o.seen.getD (!o.low), o.seen.isSome⟩ :: o.cells
      match byteEvent cells with
      | some e => ({ o with scl := false, pulse := false, cells := [] }, some e)
      | none => ({ o with scl := false, pulse := false, cells := cells }, none)
    else ({ o with scl := false, pulse := false }, none)

/-- The events an observer sees along a trace. -/
def Watch.events (o : Watch) : List MicroOp → List BusEvent
  | [] => []
  | op :: ops => (o.see op).2.toList ++ Watch.events (o.see op).1 ops

/-- The byte trace of a micro-op trace that begins on idle lines (R13). -/
def busEvents (ops : List MicroOp) : List BusEvent := Watch.idle.events ops

end Sys2Proof.Machine
end

