-- ==== Sys2Proof/Safety.lean ====
section
/-! DEFINITION. The terms claims are stated in: what a run of micro-ops keeps, the traces the rules
give, the block's readiness, and the invariant of every step. -/

namespace Sys2Proof.Machine

/-! ### Traces the rules give -/

/-- `DR CH DL W CL` (R127). -/
def startOps : List MicroOp := [.sdaRel, .sclHi, .sdaLo, .wait, .sclLo]

/-- `DL W CH DR W` (R128). -/
def stopOps : List MicroOp := [.sdaLo, .wait, .sclHi, .sdaRel, .wait]

/-- The data micro-op of a written bit: low for 0, released for 1 (R88). -/
def bitOp (b : Byte) (i : Nat) : MicroOp := if b.getLsbD i then .sdaRel else .sdaLo

/-- `Dx W CH W CL`, one data cell of a written byte (R129). -/
def writeCellOps (b : Byte) (i : Nat) : List MicroOp := [bitOp b i, .wait, .sclHi, .wait, .sclLo]

/-- The trace of `WBYTE(b)` whose acknowledgement sample is `level` (R129). -/
def wbyteOps (b : Byte) (level : Bool) : List MicroOp :=
  bitOrder.flatMap (writeCellOps b) ++ [.sdaRel, .wait, .sclHi, .wait, .smp level, .sclLo]

/-- `W CH W S=x CL`, one data cell of a byte read (R130). -/
def readCellOps (d : Byte) (i : Nat) : List MicroOp := [.wait, .sclHi, .wait, .smp (d.getLsbD i), .sclLo]

/-- The trace of `RBYTE(sendAck)` that returns `d` (R130). -/
def rbyteOps (sendAck : Bool) (d : Byte) : List MicroOp :=
  .sdaRel :: bitOrder.flatMap (readCellOps d) ++
    [if sendAck then .sdaLo else .sdaRel, .wait, .sclHi, .wait, .sclLo, .sdaRel]

/-- The trace of a probe frame (R113). -/
def probeOps (addr : BusAddr) (acked : Bool) : List MicroOp :=
  startOps ++ wbyteOps (addressByte addr false) (!acked) ++ stopOps

/-- The trace of a write frame, by how it ended (R114, R116). -/
def writeOps (addr : BusAddr) (reg val : Byte) : Except Cause Unit → List MicroOp
  | .error .nackAddrW => startOps ++ wbyteOps (addressByte addr false) true ++ stopOps
  | .error .nackReg => startOps ++ wbyteOps (addressByte addr false) false ++ wbyteOps reg true ++ stopOps
  | .error _ => startOps ++ wbyteOps (addressByte addr false) false ++ wbyteOps reg false ++
      wbyteOps val true ++ stopOps
  | .ok _ => startOps ++ wbyteOps (addressByte addr false) false ++ wbyteOps reg false ++
      wbyteOps val false ++ stopOps

/-- The trace of a read frame, by how it ended (R115, R116, R133). -/
def readOps (addr : BusAddr) (reg : Byte) : Except Cause Byte → List MicroOp
  | .error .nackAddrW => startOps ++ wbyteOps (addressByte addr false) true ++ stopOps
  | .error .nackReg => startOps ++ wbyteOps (addressByte addr false) false ++ wbyteOps reg true ++ stopOps
  | .error _ => startOps ++ wbyteOps (addressByte addr false) false ++ wbyteOps reg false ++
      startOps ++ wbyteOps (addressByte addr true) true ++ stopOps
  | .ok d => startOps ++ wbyteOps (addressByte addr false) false ++ wbyteOps reg false ++
      startOps ++ wbyteOps (addressByte addr true) false ++ rbyteOps false d ++ stopOps

/-- The ways a write can end (R161). -/
def writeEnd : Except Cause Unit → Bool
  | .ok _ => true
  | .error why => why == .nackAddrW || why == .nackReg || why == .nackData

/-- The ways a read with a destination can end (R161). -/
def readEnd : Except Cause Byte → Bool
  | .ok _ => true
  | .error why => why == .nackAddrW || why == .nackReg || why == .nackAddrR

/-- The trace of writes one after another, each with how it ended. -/
def eachOps (addr : BusAddr) (xs : List ((Byte × Byte) × Except Cause Unit)) : List MicroOp :=
  xs.flatMap fun x => writeOps addr x.1.1 x.1.2 x.2

/-- The trace of a rewrite: the read, and the write of the forced byte if the read succeeded (R141). -/
def rewriteOps (p : Params) (r m : Byte) (set : Bool) :
    Except Cause Byte → Except Cause Unit → List MicroOp
  | .error why, _ => readOps p.devAddr r (.error why)
  | .ok d, x => readOps p.devAddr r (.ok d) ++ writeOps p.devAddr r (force d m set) x

/-- How the transactions of a `DC.BEGIN` ended whose first write succeeded (R141). -/
structure BeginEnds where
  /-- The eight best-effort writes. -/
  best : List (Except Cause Unit)
  /-- The read of `0x1A`. -/
  fb : Except Cause Byte
  /-- The write of `0x1A`, if the read succeeded. -/
  fbWrite : Except Cause Unit
  /-- The read of `0x1D`. -/
  c3 : Except Cause Byte
  /-- The write of `0x1D`, if the read succeeded. -/
  c3Write : Except Cause Unit

/-- The ends are ones a write or a read can have, for the writes there are. -/
structure BeginEnds.Possible (e : BeginEnds) : Prop where
  count : e.best.length = 8
  best : ∀ x ∈ e.best, writeEnd x = true
  fb : readEnd e.fb = true
  fbWrite : writeEnd e.fbWrite = true
  c3 : readEnd e.c3 = true
  c3Write : writeEnd e.c3Write = true

/-- The trace of a `DC.BEGIN` whose first write succeeded: at most thirteen transactions, in the order of
R141. -/
def beginOps (p : Params) (e : BeginEnds) : List MicroOp :=
  writeOps p.devAddr regMode 0x00 (.ok ()) ++ eachOps p.devAddr ((bestEffortWrites p).zip e.best) ++
    rewriteOps p regFeedback (fbMask p) (fbSet p) e.fb e.fbWrite ++
    rewriteOps p regControl3 (c3Mask p) (c3Set p) e.c3 e.c3Write

/-! ### What running micro-ops keeps -/

/-- The micro-ops `ops` took `s` to `t`, as far as they alone decide: they join the trace, each
advances `UPC` by 1 and each wait adds `HP` to `T` (R120, R126, R36); the constants, `HP`, the clock
pin's mode, the operand latches, `RESP`, `BUSY` and the words still to come are as before. -/
structure Ran (ops : List MicroOp) (s t : State) : Prop where
  tr : t.tr = ops.reverse ++ s.tr
  upc : t.upc = s.upc + ops.length
  time : t.t = s.t + waits ops * s.hp.toNat
  par : t.par = s.par
  hp : t.hp = s.hp
  sclm : t.sclm = s.sclm
  opc : t.opc = s.opc
  a : t.a = s.a
  b : t.b = s.b
  c : t.c = s.c
  resp : t.resp = s.resp
  busy : t.busy = s.busy
  offered : t.offered = s.offered

/-- What a command that completes leaves, apart from the slave and the sequencer's temporaries: its
micro-ops have joined the trace and the time, `RESP` is the response, the block is idle with the lines
idle, the latches hold the command's fields, and the constants, `HP` and the words still to come are as
before (R26, R27, R28, R31, R169). -/
structure Completed (w : CommandWord) (ops : List MicroOp) (r : Resp) (s t : State) : Prop where
  tr : t.tr = ops.reverse ++ s.tr
  time : t.t = s.t + waits ops * s.hp.toNat
  resp : t.resp = r
  busy : t.busy = false
  upc : t.upc = 0
  sclm : t.sclm = s.sclm
  sclo : t.sclo = s.sclo
  sdam : t.sdam = s.sdam
  opc : t.opc = fieldOpc w
  a : t.a = fieldA w
  b : t.b = fieldB w
  c : t.c = fieldC w
  par : t.par = s.par
  hp : t.hp = s.hp
  offered : t.offered = s.offered

/-! ### Byte traces the rules give (R13, R87) -/

/-- `S W<AB(A,0)>/a P`. -/
def probeEvents (addr : BusAddr) (acked : Bool) : List BusEvent :=
  [.start, .wrote (addressByte addr false) acked, .stop]

/-- The byte trace of a write frame, by how it ended. -/
def writeEvents (addr : BusAddr) (reg val : Byte) : Except Cause Unit → List BusEvent
  | .error .nackAddrW => [.start, .wrote (addressByte addr false) false, .stop]
  | .error .nackReg => [.start, .wrote (addressByte addr false) true, .wrote reg false, .stop]
  | .error _ => [.start, .wrote (addressByte addr false) true, .wrote reg true, .wrote val false, .stop]
  | .ok _ => [.start, .wrote (addressByte addr false) true, .wrote reg true, .wrote val true, .stop]

/-- The byte trace of a read frame, by how it ended; the master ends the byte with a
not-acknowledge. -/
def readEvents (addr : BusAddr) (reg : Byte) : Except Cause Byte → List BusEvent
  | .error .nackAddrW => [.start, .wrote (addressByte addr false) false, .stop]
  | .error .nackReg => [.start, .wrote (addressByte addr false) true, .wrote reg false, .stop]
  | .error _ =>
    [.start, .wrote (addressByte addr false) true, .wrote reg true, .start,
      .wrote (addressByte addr true) false, .stop]
  | .ok d =>
    [.start, .wrote (addressByte addr false) true, .wrote reg true, .start,
      .wrote (addressByte addr true) true, .read d false, .stop]

/-! ### Readiness -/

/-- The block is idle and every sample completes: `STALL_MODEL` is `none` (R164, decision D22). -/
def Ready (s : State) : Prop := s.busy = false ∧ s.par.stallModel = .none

/-- Ready to transfer: the lines are in the idle line state (R110). -/
def ReadyToTransfer (s : State) : Prop := Ready s ∧ linesIdle s = true

/-- The command touches the lines by a transfer, so that it has the precondition of R110: all but
`BE.BEGIN`, `BE.SETHP`, `BE.RD8` without a destination and `DC.SETWAVE` beyond slot 7 (R166). -/
def transfers : Instr → Bool
  | .beBegin => false
  | .beSethp _ => false
  | .beProbe _ => true
  | .beWr8 _ _ _ => true
  | .beRd8 _ _ nd => !nd
  | .dcBegin => true
  | .dcSellib _ => true
  | .dcSetmode _ => true
  | .dcSetwave slot _ => decide (slot.toNat ≤ 7)
  | .dcGo => true
  | .dcRdstatus => true
  | .dcIsconn => true

/-- The lines are unconfigured: `BE.BEGIN` has not run (R111). -/
def linesUnconfigured (s : State) : Prop := s.sclm = .unconf ∧ s.sdam = .unconf

/-- The precondition of a command, beyond an idle block (R110, R111, R140, R166). -/
def precondition (i : Instr) (s : State) : Prop :=
  (transfers i = true → linesIdle s = true) ∧ (i = .beBegin → linesUnconfigured s)

/-- Two states in which a command finds the same block and the same slave: they may differ in what
earlier commands left in the operand latches, `RESP`, the sequencer's temporaries and `UPC`, in the time
and in the words still to come (R27, R30, R34, R170). -/
structure SameBlock (s u : State) : Prop where
  par : s.par = u.par
  hp : s.hp = u.hp
  sclm : s.sclm = u.sclm
  sclo : s.sclo = u.sclo
  sdam : s.sdam = u.sdam
  busy : s.busy = u.busy
  tr : s.tr = u.tr
  slave : s.slave = u.slave
  hangAfter : s.hangAfter = u.hangAfter

/-! ### The reference slave under a command (R62 to R65) -/

/-- The reference slave acknowledges a frame to this address: it is present and addressed (R64). -/
def RefSlave.hears (r : RefSlave) (addr : BusAddr) : Bool := r.present && decide (addr = r.sa)

/-- Register `q` after the data byte `val` reached register `reg` (R64). -/
def RefSlave.after (r : RefSlave) (reg val q : Byte) : Byte :=
  if q = reg ∧ reg ∉ r.ro then val else r.rf.read q

/-- The wiring of a slave, which no transaction changes (R62). -/
def RefSlave.sameDevice (r r' : RefSlave) : Prop :=
  r'.present = r.present ∧ r'.sa = r.sa ∧ r'.ro = r.ro

/-- The registers `DC.BEGIN` writes, in bus order (R141). -/
def initialisedRegisters : List Byte :=
  [ regMode, regRtpin, regWaveseq1, regWaveseq2, regOdt, regSpt, regSnt, regBrt, regAudiomax, regFeedback
  , regControl3 ]

/-- The register numbers a command can store to, on whatever device it addresses (R52, R114, R141 to
R147). -/
def storedRegisters : Instr → List Byte
  | .beBegin => []
  | .beSethp _ => []
  | .beProbe _ => []
  | .beWr8 _ reg _ => [reg]
  | .beRd8 _ _ _ => []
  | .dcBegin => initialisedRegisters
  | .dcSellib _ => [regLibsel]
  | .dcSetmode _ => [regMode]
  | .dcSetwave slot _ => if slot.toNat ≤ 7 then [waveRegister slot] else []
  | .dcGo => [regGo]
  | .dcRdstatus => []
  | .dcIsconn => []

/-- Register `q` after a `DC.BEGIN` all of whose transactions were acknowledged, when it held `old q`
before (R141). -/
def initialised (p : Params) (old : Byte → Byte) (q : Byte) : Byte :=
  if q = regWaveseq1 then p.effectDefault
  else if q = regAudiomax then p.audioMaxDefault
  else if q = regFeedback then force (old q) (fbMask p) (fbSet p)
  else if q = regControl3 then force (old q) (c3Mask p) (c3Set p)
  else if q ∈ initialisedRegisters then 0x00
  else old q

/-- The ends of a `DC.BEGIN` all of whose transactions were acknowledged and whose reads found `f` and
`c`. -/
def BeginEnds.allAcked (f c : Byte) : BeginEnds :=
  ⟨List.replicate 8 (.ok ()), .ok f, .ok (), .ok c, .ok ()⟩

/-- The register and the value of a Device Controller command that is one fire-and-forget write (R140). -/
def controllerStore : Instr → Option (Byte × Byte)
  | .beBegin => none
  | .beSethp _ => none
  | .beProbe _ => none
  | .beWr8 _ _ _ => none
  | .beRd8 _ _ _ => none
  | .dcBegin => none
  | .dcSellib id => some (regLibsel, id)
  | .dcSetmode mode => some (regMode, mode)
  | .dcSetwave slot effect => if slot.toNat ≤ 7 then some (waveRegister slot, effect) else none
  | .dcGo => some (regGo, 0x01)
  | .dcRdstatus => none
  | .dcIsconn => none

/-- Two commands run from one state do the same on the wire, with the same slave, in the same time; the
first answers `answer` of the second's answer (R140). -/
def SameOnTheWire (i j : Instr) (answer : Resp → Resp) (s : State) : Prop :=
  ∃ t u, exec i s = .next t ∧ exec j s = .next u ∧ t.tr = u.tr ∧ t.t = u.t ∧ t.slave = u.slave ∧
    t.resp = answer u.resp

/-- The bits of a byte in the order they travel (R55). -/
def wireBits (d : Byte) : List Bool := bitOrder.map d.getLsbD

/-! ### The invariant -/

/-- The slave's memory is in canonical form, if it has one. -/
def slaveWf : Slave → Prop
  | .oracle _ => True
  | .reference r => r.rf.wf

/-- What every step keeps: the two pins differ (R7); the lines are unconfigured or in the idle line
state (R26, R134, R166; a hang leaves `SCLO = 1`, `SDAM = REL`, R164); an idle block has `UPC = 0`
(R29); a block stays busy only in a sample that never completes (R31, R164); the slave's memory is
canonical. -/
structure Inv (s : State) : Prop where
  pins : s.par.pinScl ≠ s.par.pinSda
  lines : linesUnconfigured s ∨ linesIdle s = true
  idle : s.busy = false → s.upc = 0
  hung : s.busy = true → sampleHangs s = true ∧ linesIdle s = true
  slave : slaveWf s.slave

/-! ### Line properties of a trace (R125, R131) -/

/-- The waits before each clock micro-op, since the one before it or the beginning: the lengths of the
clock phases, in half-periods (R131).  `n` waits have been seen already. -/
def phaseWaits (n : Nat) : List MicroOp → List Nat
  | [] => []
  | .wait :: ops => phaseWaits (n + 1) ops
  | .sclHi :: ops => n :: phaseWaits 0 ops
  | .sclLo :: ops => n :: phaseWaits 0 ops
  | .sdaLo :: ops => phaseWaits n ops
  | .sdaRel :: ops => phaseWaits n ops
  | .smp _ :: ops => phaseWaits n ops

/-- Every sample is taken with the clock high and the data line released by the master (R125, V45). -/
def samplesReleased (o : Watch) : List MicroOp → Prop
  | [] => True
  | op :: ops => (∀ v, op = .smp v → o.scl = true ∧ o.low = false) ∧ samplesReleased (o.see op).1 ops

end Sys2Proof.Machine
end

