-- ==== Sys2Proof/Certificates/Slice0/Obligations.lean ====
section
/-! DEFINITION. The statements for the provers. -/

section

open Sys2Proof Sys2Proof.Machine

/-! ### Encodings -/

/-- R81, R82, R83, R95: no bit of a command is lost in its word, whatever its operands. -/
def Obligations.DecodeOfEncodeIsTheCommand : Prop :=
  ∀ i, decode (encode i) = .ok i

/-- R81, R82, R97: one field layout, so each legal word is the one word of its command. -/
def Obligations.EncodeOfDecodedIsTheWord : Prop :=
  ∀ w i, decode w = .ok i → encode i = w

/-- R81, R82, R85: the decoder, written from the field positions, accepts exactly the words that match
one row of the opcode map, and tells the two ways to be illegal apart. -/
def Obligations.DecoderAcceptsExactlyTheLegalWords : Prop :=
  ∀ w, ((∃ i, decode w = .ok i) ↔ wordLegal w = true) ∧
    (decode w = .error .unknownOpcode ↔ opcodeListed w = false) ∧
    (decode w = .error .reservedBits ↔ opcodeListed w = true ∧ reservedBitsZero w = false)

/-- R82: the command a word decodes to is that of the one row of the opcode map that selects it. -/
def Obligations.DecodedCommandIsOfTheSelectedRow : Prop :=
  ∀ w i, decode w = .ok i →
    ∃ r ∈ opcodeMap, r.mnemonic = i.mnemonic ∧ ∀ q ∈ opcodeMap, q.selects w = true ↔ q = r

/-- 95_test_vectors V28: words written out by the spec, one for each command, and the command each is. -/
def Obligations.WordsAsTheSpecWritesThem : Prop :=
  decode 0x00000000 = .ok .beBegin ∧
  decode 0x0100FFFF = .ok (.beSethp 0xFFFF) ∧
  decode 0x027F0000 = .ok (.beProbe 0x7F) ∧
  decode 0x035A0C01 = .ok (.beWr8 0x5A 0x0C 0x01) ∧
  decode 0x045A1A00 = .ok (.beRd8 0x5A 0x1A false) ∧
  decode 0x045A0001 = .ok (.beRd8 0x5A 0x00 true) ∧
  decode 0x10000000 = .ok .dcBegin ∧
  decode 0x110000FF = .ok (.dcSellib 0xFF) ∧
  decode 0x12000007 = .ok (.dcSetmode 0x07) ∧
  decode 0x1300FF01 = .ok (.dcSetwave 0xFF 0x01) ∧
  decode 0x14000000 = .ok .dcGo ∧
  decode 0x15000000 = .ok .dcRdstatus ∧
  decode 0x16000000 = .ok .dcIsconn

/-- R84: the address stands in bits 7:1 of the address byte and the direction in bit 0; equivalently the
address is shifted left by one in 8 bits; and the two bytes of `DEVADDR = 0x5A`. -/
def Obligations.AddressByteIsAddressThenDirection : Prop :=
  (∀ addr read,
    (addressByte addr read).extractLsb' 1 7 = addr ∧ (addressByte addr read).getLsbD 0 = read ∧
    addressByte addr read = (addr.setWidth 8 <<< 1) ||| (if read then 1 else 0)) ∧
  addressByte 0x5A false = 0xB4 ∧ addressByte 0x5A true = 0xB5

/-- R86: bits 15:9 of the response word are zero, bit 8 is `ok`, bits 7:0 are `data`; and the rule's
three words.  The layout is the spec's own decision D2. -/
def Obligations.ResponseWordLayout : Prop :=
  (∀ r : Resp, (responseWord r).extractLsb' 0 8 = r.data ∧ (responseWord r).getLsbD 8 = r.ok ∧
    (responseWord r).extractLsb' 9 7 = 0) ∧
  responseWord ⟨true, 0xE0⟩ = 0x01E0 ∧ responseWord ⟨false, 0x00⟩ = 0x0000 ∧
  responseWord ⟨true, 0x00⟩ = 0x0100

/-- R142 with 95_test_vectors V30c: `force` sets the bits the mask selects and keeps every other bit; it
is idempotent; and each mask has exactly one bit set. -/
def Obligations.ForceSetsTheMaskedBits : Prop :=
  (∀ v m s i, i < 8 → (force v m s).getLsbD i = if m.getLsbD i then s else v.getLsbD i) ∧
  (∀ v m s, force (force v m s) m s = force v m s) ∧
  ∀ p, (∃ i, i < 8 ∧ ∀ j, j < 8 → (fbMask p).getLsbD j = decide (j = i)) ∧
    ∃ i, i < 8 ∧ ∀ j, j < 8 → (c3Mask p).getLsbD j = decide (j = i)

/-- R93, R146: slot 0 to 7 is register `0x04` to `0x0B`, and the addition never wraps. -/
def Obligations.WaveRegisterFollowsTheSlot : Prop :=
  ∀ slot : Byte, slot.toNat ≤ 7 → (waveRegister slot).toNat = 0x04 + slot.toNat

/-! ### The host's words -/

/-- R80, R82: an idle block takes the next word the host offers and runs the command it decodes to.  The
words to come are a field of the model's own (log entry 8). -/
def Obligations.StepRunsTheDecodedCommand : Prop :=
  ∀ s w rest i, s.busy = false → s.offered = w :: rest → decode w = .ok i →
    step s = exec i { s with offered := rest }

/-- R165: an illegal word is not executed; the block answers `(0, 0x00)` and changes nothing else, the
operand latches included.  Legal is what matches one row of the opcode map (`wordLegal`), not what the
decoder says.  The rule is the spec's own decision D3. -/
def Obligations.IllegalWordAnswersFailure : Prop :=
  ∀ s w rest, s.busy = false → s.offered = w :: rest → wordLegal w = false →
    step s = .next { s with offered := rest, resp := ⟨false, 0x00⟩ }

/-- R192: an idle block does nothing until the host gives a command, and after reset it is idle. -/
def Obligations.IdleBlockWaitsForTheHost : Prop :=
  (∀ s, s.busy = false → s.offered = [] → step s = .next s) ∧
  State.reset.busy = false ∧ State.reset.upc = 0

/-- R31: while the block is busy a word is not accepted and has no effect. -/
def Obligations.BusyBlockAcceptsNothing : Prop :=
  ∀ s, s.busy = true → step s = .next s ∧ ∀ i, exec i s = .next s

/-- The model's interface (log entry 8): the word of any command, offered first, is what the next step
runs, in the otherwise unchanged state of an idle block. -/
def Obligations.OfferedWordIsRunNext : Prop :=
  ∀ (s : State) i, step (s.withFetchWord 32 (encode i).toNat) = exec i { s with busy := false, upc := 0 }

/-! ### Reset -/

/-- R37: every value the rule gives for the state after construction, whatever the constants and the
slave, and the constants' own default values.  Most of the rule's values are the spec's own decisions (D2, D5,
D9, D19, D21, D26); the values it leaves unspecified are not stated. -/
def Obligations.ResetStateIsAsTheSpecSays : Prop :=
  (∀ par slave hang, (State.construct par slave hang).hp = par.hpDefault ∧
    (State.construct par slave hang).sclm = .unconf ∧ (State.construct par slave hang).sdam = .unconf ∧
    (State.construct par slave hang).upc = 0 ∧ (State.construct par slave hang).busy = false ∧
    (State.construct par slave hang).tr = [] ∧ (State.construct par slave hang).t = 0 ∧
    (State.construct par slave hang).slave = slave) ∧
  State.reset = State.construct Config.params (.oracle []) Config.hangAfter ∧
  State.reset.hp = 5 ∧ State.reset.par.devAddr = 0x5A ∧ State.reset.par.stallModel = .none

/-- R7, R26, R29, R37: the state after reset, and after any construction with two pins and a slave whose
memory is in canonical form, meets the invariant. -/
def Obligations.ResetMeetsTheInvariant : Prop :=
  Sys2Proof.Machine.Inv State.reset ∧
  ∀ par slave hang, par.pinScl ≠ par.pinSda → slaveWf slave →
      Sys2Proof.Machine.Inv (State.construct par slave hang)

/-! ### Micro-ops and bus primitives -/

/-- R121, R122: each clock micro-op writes `SCLO`, advances `UPC` and joins the trace, and nothing else;
on a configured pin the wire carries the level. -/
def Obligations.ClockMicroOpsDriveTheClock : Prop :=
  ∀ s, sclHi s = .ok () { s with sclo := true, upc := s.upc + 1, tr := .sclHi :: s.tr } ∧
    sclLo s = .ok () { s with sclo := false, upc := s.upc + 1, tr := .sclLo :: s.tr } ∧
    (s.sclm = .out → sclWire s = some s.sclo)

/-- R123, R124: each data micro-op writes `SDAM` in one step and nothing else but the bookkeeping; a
pulled line is low whatever the slave does, a released one is high unless the slave pulls it. -/
def Obligations.DataMicroOpsPullOrRelease : Prop :=
  ∀ s, sdaLo s = .ok () { s with sdam := .low, upc := s.upc + 1, tr := .sdaLo :: s.tr } ∧
    sdaRel s = .ok () { s with sdam := .rel, upc := s.upc + 1, tr := .sdaRel :: s.tr } ∧
    ∀ pulls, (s.sdam = .low → sdaWire s pulls = some false) ∧
      (s.sdam = .rel → sdaWire s pulls = some (!pulls))

/-- R126: a wait adds the half-period of that moment to the time, and nothing else but the bookkeeping. -/
def Obligations.WaitLastsOneHalfPeriod : Prop :=
  ∀ s, wait s = .ok () { s with t := s.t + s.hp.toNat, upc := s.upc + 1, tr := .wait :: s.tr }

/-- R25, R125, R164: a sample that completes returns 0 on a line the master pulls and the slave's answer,
asked with the micro-ops so far, on a released one, and changes no state of the block but the
bookkeeping; it never hangs under `STALL_MODEL = none`, and a sample that hangs changes nothing.  How
many samples complete is a field of the model's own (log entry 4). -/
def Obligations.SampleReadsTheDataWire : Prop :=
  ∀ q s,
    (s.par.stallModel = .none → sampleHangs s = false) ∧
    (sampleHangs s = true → smp q s = .error .sample s) ∧
    (sampleHangs s = false → ∃ level,
      smp q s = .ok level
        { s with
          slave := (s.slave.answer s.tr q).2, hangAfter := countSample s, upc := s.upc + 1,
          tr := .smp level :: s.tr } ∧
      (s.sdam = .low → level = false) ∧ (s.sdam = .rel → level = (s.slave.answer s.tr q).1))

/-- R127: the start condition is `DR CH DL W CL` from any state, first or repeated, and leaves
`SCLO = 0`, `SDAM = LOW`; nothing else changes but what `Ran` says and what the slave makes of it.  That
is R63, for the reference slave alone (D20), when the last micro-op is done (log entry 12, the model's
reading). -/
def Obligations.StartConditionSequence : Prop :=
  ∀ s, ∃ t, start s = .ok () t ∧ Ran [.sdaRel, .sclHi, .sdaLo, .wait, .sclLo] s t ∧
    t.sclo = false ∧ t.sdam = .low ∧ t.slave = s.slave.onStart ∧ t.sh = s.sh ∧ t.biti = s.biti ∧
    t.ackf = s.ackf ∧ t.hangAfter = s.hangAfter

/-- R128: the stop condition is `DL W CH DR W` and leaves the idle line state; nothing else changes but
what `Ran` says and what the slave makes of it.  That is R63, for the reference slave alone
(D20), when the last micro-op is done (log entry 12, the model's reading). -/
def Obligations.StopConditionSequence : Prop :=
  ∀ s, ∃ t, stop s = .ok () t ∧ Ran [.sdaLo, .wait, .sclHi, .sdaRel, .wait] s t ∧
    t.sclo = true ∧ t.sdam = .rel ∧ t.slave = s.slave.onStop ∧ t.sh = s.sh ∧ t.biti = s.biti ∧
    t.ackf = s.ackf ∧ t.hangAfter = s.hangAfter

/-- R129: a byte write runs the 46 micro-ops of `wbyteOps`, most significant bit first, and returns true
iff the one sample was 0; that sample is the slave's answer, asked with the micro-ops before it.
`ACKF` is the result, `SH` the byte.  One of its waits and the sample point are the spec's own decisions
D6 and D7. -/
def Obligations.ByteWriteSequence : Prop :=
  ∀ b s, s.par.stallModel = .none →
    ∃ k t before, wbyte b s = .ok k t ∧ Ran (wbyteOps b (!k)) s t ∧
      t.tr = .sclLo :: .smp (!k) :: before ∧ s.slave.answer before (.ack b) = (!k, t.slave) ∧
      t.sclo = false ∧ t.sdam = .rel ∧ t.sh = b ∧ t.ackf = k ∧ t.hangAfter = s.hangAfter

/-- R130: a byte read runs the 47 micro-ops of `rbyteOps` for the byte it returns, which is the eight
samples most significant bit first, and for the acknowledgement it was told to send; what the slave
listed first is what it returns, and the reference slave drives the register its pointer names.
Seventeen of its waits and the sample point are the spec's own decisions D6, D7 and D8. -/
def Obligations.ByteReadSequence : Prop :=
  ∀ sendAck s, s.par.stallModel = .none →
    ∃ d t, rbyte sendAck s = .ok d t ∧ Ran (rbyteOps sendAck d) s t ∧
      t.sclo = false ∧ t.sdam = .rel ∧ t.sh = d ∧ t.ackf = s.ackf ∧
      (∀ e rest, s.slave = .oracle (wireBits e ++ rest) → d = e ∧ t.slave = .oracle rest) ∧
      ∀ r, s.slave = .reference r →
        t.slave = .reference r ∧
        d = if r.present && r.sel && r.dir then r.rf.read r.ptr else 0xFF

/-! ### Commands -/

/-- R111: `BE.BEGIN` from unconfigured lines leaves the clock pin an output held high and the data line
released, by the two micro-ops `CH DR`, answers `(1, 0x00)` and changes nothing else (the operand
latches hold the command's fields, R27).  The order of the two and the line modes before it are the
spec's own decision D9. -/
def Obligations.BeginConfiguresTheLines : Prop :=
  ∀ s, s.busy = false → s.sclm = .unconf → s.sdam = .unconf →
    exec .beBegin s = .next
      { s with
        sclm := .out, sclo := true, sdam := .rel, tr := .sdaRel :: .sclHi :: s.tr, resp := ⟨true, 0x00⟩,
        opc := 0x00, a := 0, b := 0, c := 0, busy := false, upc := 0 }

/-- R112: `BE.SETHP us` stores its operand in `HP`, before or after `BE.BEGIN`, executes no micro-op,
answers `(1, 0x00)` and changes nothing else (the operand latches hold the command's fields, R27); the
next wait lasts `us`.  That it may come before `BE.BEGIN` is R112's own inference; the latches are the
spec's own decision D1, with `IMM` as a view of `B` and `C` (log entry 10). -/
def Obligations.SetHalfPeriodStoresItsOperand : Prop :=
  ∀ us s, s.busy = false →
    ∃ t, exec (.beSethp us) s = .next t ∧
      t = { s with
        hp := us, resp := ⟨true, 0x00⟩, opc := 0x01, a := 0, b := us.extractLsb' 8 8,
        c := us.extractLsb' 0 8, busy := false, upc := 0 } ∧
      ∃ u, wait t = .ok () u ∧ u.t = s.t + us.toNat

/-- R113: `BE.PROBE` is start, the address byte with direction write, stop; it answers whether the byte
was acknowledged, with `data = 0x00`, and leaves all that `Completed` says.  Its time, and where its
waits and its sample stand, are the spec's own decisions D6 and D7 (log entry 7). -/
def Obligations.ProbeAnswersTheAcknowledgement : Prop :=
  ∀ addr s, ReadyToTransfer s →
    ∃ k t, exec (.beProbe addr) s = .next t ∧
      Completed (encode (.beProbe addr))
        (startOps ++ wbyteOps (addressByte addr false) (!k) ++ stopOps) ⟨k, 0x00⟩ s t ∧ t.ackf = k

/-- R114: `BE.WR8` is the write frame, cut short at the first byte that is not acknowledged, and its
`ok` is 1 iff all three bytes were acknowledged. That the remaining bytes are not sent is also the
spec's decision D31.  Its time and waits are decision D6 (log entry 7). -/
def Obligations.RegisterWriteSequence : Prop :=
  ∀ addr reg val s, ReadyToTransfer s →
    ∃ x t, writeEnd x = true ∧ exec (.beWr8 addr reg val) s = .next t ∧
      Completed (encode (.beWr8 addr reg val)) (writeOps addr reg val x) (respOfWrite x) s t ∧
      t.ackf = (respOfWrite x).ok

/-- R115: `BE.RD8` with a destination is the read frame, cut short at the first byte that is not
acknowledged; its answer is the byte sampled, or a failure. Without a destination it executes no
micro-op and answers `(0, 0x00)`, whatever the lines are. The place of that check is the spec's own
decision D11.  Its time and waits are decision D6 (log entry 7), the end of a cut frame is decision D31
(log entry 16), and that acceptance loads the operand latches without a destination too is the model's
choice (log entry 14; R169 says only `RESP`). -/
def Obligations.RegisterReadSequence : Prop :=
  (∀ addr reg s, ReadyToTransfer s →
    ∃ x t, readEnd x = true ∧ exec (.beRd8 addr reg false) s = .next t ∧
      Completed (encode (.beRd8 addr reg false)) (readOps addr reg x) (respOfRead x) s t ∧
      t.ackf = (respOfRead x).ok) ∧
  ∀ addr reg s, s.busy = false →
    ∃ t, exec (.beRd8 addr reg true) s = .next t ∧
      Completed (encode (.beRd8 addr reg true)) [] ⟨false, 0x00⟩ s t ∧ t.ackf = s.ackf

/-- R163, R115, R168: without a destination `BE.RD8` fails with no bus activity, before `BE.BEGIN` too;
only `RESP` changes, and the operand latches that acceptance loads (R27; log entry 14, the model's
choice).  The place of the check is the spec's own decision D11. -/
def Obligations.NullDestinationFailsWithoutBusActivity : Prop :=
  ∀ addr reg s, s.busy = false →
    exec (.beRd8 addr reg true) s = .next
      { s with
        resp := ⟨false, 0x00⟩, opc := 0x04, a := addr, b := reg, c := 0x01, busy := false, upc := 0 }

/-- R143, R144, R147: each is one write to a fixed register of `DEVADDR`, its operand sent unchanged;
the answer is `(1, 0x00)` however the write ended. The constant answer and the frame's early end are the
spec's own decisions D2 and D31.  Their time and waits are decision D6 (log entry 7). -/
def Obligations.ResultlessWritesAlwaysAnswerDone : Prop :=
  ∀ s, ReadyToTransfer s →
    (∀ id, ∃ x t, writeEnd x = true ∧ exec (.dcSellib id) s = .next t ∧
      Completed (encode (.dcSellib id)) (writeOps s.par.devAddr 0x03 id x) ⟨true, 0x00⟩ s t ∧
      t.ackf = (respOfWrite x).ok) ∧
    (∀ mode, ∃ x t, writeEnd x = true ∧ exec (.dcSetmode mode) s = .next t ∧
      Completed (encode (.dcSetmode mode)) (writeOps s.par.devAddr 0x01 mode x) ⟨true, 0x00⟩ s t ∧
      t.ackf = (respOfWrite x).ok) ∧
    ∃ x t, writeEnd x = true ∧ exec .dcGo s = .next t ∧
      Completed (encode .dcGo) (writeOps s.par.devAddr 0x0C 0x01 x) ⟨true, 0x00⟩ s t ∧
      t.ackf = (respOfWrite x).ok

/-- R145: for slot 0 to 7 `DC.SETWAVE` is one write to register `0x04 + slot`; for a slot beyond 7 it
executes no micro-op, before `BE.BEGIN` too; the answer is `(1, 0x00)` in all cases. That the slot is an
unsigned byte is the spec's own decision D17.  The end of a cut frame is decision D31 (log entry 16),
its time and waits are decision D6 (log entry 7). -/
def Obligations.WaveformSlotWrite : Prop :=
  ∀ slot effect s,
    (slot.toNat ≤ 7 → ReadyToTransfer s →
      ∃ x t, writeEnd x = true ∧ exec (.dcSetwave slot effect) s = .next t ∧
        Completed (encode (.dcSetwave slot effect)) (writeOps s.par.devAddr (0x04 + slot) effect x)
          ⟨true, 0x00⟩ s t ∧
        t.ackf = (respOfWrite x).ok) ∧
    (7 < slot.toNat → s.busy = false →
      exec (.dcSetwave slot effect) s = .next
        { s with
          resp := ⟨true, 0x00⟩, opc := 0x13, a := 0, b := slot, c := effect, busy := false, upc := 0 })

/-- R148: `DC.RDSTATUS` is the read frame for register `0x00` of `DEVADDR`. That its result always has a
destination and that the frame ends early are the spec's own decisions D27 and D31.  Its time and waits
are decision D6 (log entry 7). -/
def Obligations.StatusReadSequence : Prop :=
  ∀ s, ReadyToTransfer s →
    ∃ x t, readEnd x = true ∧ exec .dcRdstatus s = .next t ∧
      Completed (encode .dcRdstatus) (readOps s.par.devAddr 0x00 x) (respOfRead x) s t ∧
      t.ackf = (respOfRead x).ok

/-- R149: `DC.ISCONN` is the probe frame for `DEVADDR`.  Its time, and where its waits and its sample
stand, are the spec's own decisions D6 and D7 (log entry 7). -/
def Obligations.ConnectionProbeSequence : Prop :=
  ∀ s, ReadyToTransfer s →
    ∃ k t, exec .dcIsconn s = .next t ∧
      Completed (encode .dcIsconn)
        (startOps ++ wbyteOps (addressByte s.par.devAddr false) (!k) ++ stopOps) ⟨k, 0x00⟩ s t ∧
      t.ackf = k

/-- R141: `DC.BEGIN` is its first write and nothing else, answering `(0, 0x00)`, if that write is not
acknowledged; else the eight best-effort writes and the two rewrites follow, however each ends, and the
answer is `(1, 0x00)`. The order of the eight writes, the meaning of the rewrites and what they depend
on are the spec's own decisions D12, D13 and D14.  Its time and waits are decision D6 (log entry 7), the
end of a cut frame is decision D31 (log entry 16). -/
def Obligations.InitialisationSequence : Prop :=
  ∀ s, ReadyToTransfer s →
    ∃ t, exec .dcBegin s = .next t ∧
      ((∃ why, writeEnd (.error why) = true ∧
          Completed (encode .dcBegin) (writeOps s.par.devAddr 0x01 0x00 (.error why)) ⟨false, 0x00⟩ s t) ∨
        ∃ e : BeginEnds, e.Possible ∧
          Completed (encode .dcBegin) (beginOps s.par e) ⟨true, 0x00⟩ s t)

/-! ### What an observer of the lines sees -/

/-- R13, R87, R116: the byte trace of each frame, complete or cut short, whatever follows it.  The observer
is the model's own (log entry 19): beside the two lines it knows which clock pulses the master sampled,
which tells a byte read from a byte written.  That a frame ends at its first missing acknowledgement is
the spec's own decision D31 (log entry 16). -/
def Obligations.FramesOnTheWire : Prop :=
  ∀ addr reg val (rest : List MicroOp),
    (∀ k, busEvents (probeOps addr k ++ rest) =
      [.start, .wrote (addressByte addr false) k, .stop] ++ busEvents rest) ∧
    (∀ x, writeEnd x = true →
      busEvents (writeOps addr reg val x ++ rest) = writeEvents addr reg val x ++ busEvents rest) ∧
    ∀ x, readEnd x = true →
      busEvents (readOps addr reg x ++ rest) = readEvents addr reg x ++ busEvents rest

/-- R132: micro-ops, waits and samples of the primitives, of the frames by how they ended, and of a
`DC.BEGIN` in which every step succeeds.  The counts of waits and of micro-ops rest on the spec's own
decision D6 (log entry 7), those of the frames cut short on its decision D31 (R116; log entry 16). -/
def Obligations.CountsOfTheSequences : Prop :=
  (startOps.length, waits startOps, samples startOps) = (5, 1, 0) ∧
  (stopOps.length, waits stopOps, samples stopOps) = (5, 2, 0) ∧
  (∀ b l, ((wbyteOps b l).length, waits (wbyteOps b l), samples (wbyteOps b l)) = (46, 18, 1)) ∧
  (∀ k d, ((rbyteOps k d).length, waits (rbyteOps k d), samples (rbyteOps k d)) = (47, 18, 8)) ∧
  (∀ addr k, ((probeOps addr k).length, waits (probeOps addr k), samples (probeOps addr k)) = (56, 21, 1)) ∧
  (∀ addr reg val x, writeEnd x = true →
    ((writeOps addr reg val x).length, waits (writeOps addr reg val x), samples (writeOps addr reg val x)) =
      match x with
      | .error .nackAddrW => (56, 21, 1)
      | .error .nackReg => (102, 39, 2)
      | _ => (148, 57, 3)) ∧
  (∀ addr reg x, readEnd x = true →
    ((readOps addr reg x).length, waits (readOps addr reg x), samples (readOps addr reg x)) =
      match x with
      | .error .nackAddrW => (56, 21, 1)
      | .error .nackReg => (102, 39, 2)
      | .error _ => (153, 58, 3)
      | .ok _ => (200, 76, 11)) ∧
  ∀ p f c,
    ((beginOps p (.allAcked f c)).length, waits (beginOps p (.allAcked f c)),
      samples (beginOps p (.allAcked f c))) = (2028, 779, 55)

/-- R131, R210 (decision D6): inside a byte, written or read, exactly one wait lies between a clock
micro-op and the next, eighteen times. -/
def Obligations.ClockPhasesOfAByteLastOneHalfPeriod : Prop :=
  (∀ b l, phaseWaits 0 (wbyteOps b l) = List.replicate 18 1) ∧
  ∀ k d, phaseWaits 0 (rbyteOps k d) = List.replicate 18 1

/-- R90, R125, R134, V45: whatever command runs on configured lines, each of its samples is taken with
the clock high and the line released, and if it executes any micro-op its whole trace ends with a stop
condition; it leaves the lines idle.  The lines along the trace are followed by the model's own observer
(log entry 19). -/
def Obligations.SamplesFindTheLineReleased : Prop :=
  ∀ i s t, ReadyToTransfer s → exec i s = .next t →
    linesIdle t = true ∧
    ∃ ops, t.tr = ops.reverse ++ s.tr ∧ samplesReleased Watch.idle ops ∧
      (ops = [] ∨ ∃ frames, ops = frames ++ stopOps)

/-- R140's table: what each Device Controller command is on the wire. -/
def Obligations.ControllerCommandsAreEngineFrames : Prop :=
  ∀ s, ReadyToTransfer s →
    (∀ id, SameOnTheWire (.dcSellib id) (.beWr8 s.par.devAddr 0x03 id) (fun _ => ⟨true, 0x00⟩) s) ∧
    (∀ mode, SameOnTheWire (.dcSetmode mode) (.beWr8 s.par.devAddr 0x01 mode) (fun _ => ⟨true, 0x00⟩) s) ∧
    (∀ slot effect, slot.toNat ≤ 7 →
      SameOnTheWire (.dcSetwave slot effect) (.beWr8 s.par.devAddr (0x04 + slot) effect)
        (fun _ => ⟨true, 0x00⟩) s) ∧
    (∀ slot effect, 7 < slot.toNat →
      ∃ t, exec (.dcSetwave slot effect) s = .next t ∧ t.tr = s.tr ∧ t.slave = s.slave ∧
        t.resp = ⟨true, 0x00⟩) ∧
    SameOnTheWire .dcGo (.beWr8 s.par.devAddr 0x0C 0x01) (fun _ => ⟨true, 0x00⟩) s ∧
    SameOnTheWire .dcRdstatus (.beRd8 s.par.devAddr 0x00 false) id s ∧
    SameOnTheWire .dcIsconn (.beProbe s.par.devAddr) id s

/-! ### Rules of the whole machine -/

/-- R110, R166, R168: an idle block refuses a command that transfers exactly when the lines are not in
the idle line state, and `BE.BEGIN` exactly when the lines are configured; no other command, and it
neither refuses for another reason nor faults. The refusals are the spec's own decision D9. R166 names
`SCLM = UNCONF`; that the test is the idle line state, R110's precondition, is the model's reading (log
entry 5), and the two agree in every state that meets the invariant. -/
def Obligations.RefusedExactlyOutsideThePrecondition : Prop :=
  ∀ i s, s.busy = false →
    (exec i s = .refused .notBegun ↔ transfers i = true ∧ linesIdle s = false) ∧
    (exec i s = .refused .begunTwice ↔ i = .beBegin ∧ ¬ linesUnconfigured s) ∧
    (∀ r, exec i s = .refused r → r = .notBegun ∨ r = .begunTwice) ∧ ∀ f, exec i s ≠ .fault f

/-- R164: a command that does not complete leaves the block busy for ever, `RESP` unwritten and the
lines as the micro-ops before the sample left them; it happens only under `sample_may_hang`.  The bound
on `UPC` rests on decision D6 (log entry 7). -/
def Obligations.StallHoldsTheBlockForEver : Prop :=
  ∀ i s t, s.busy = false → exec i s = .next t → t.busy = true →
    t.par.stallModel = .sampleMayHang ∧ t.resp = s.resp ∧ t.sclo = true ∧ t.sdam = .rel ∧ t.upc ≤ 2027 ∧
    (∀ j, exec j t = .next t) ∧ ∀ n, Host.Core.run Sys2Proof.core n t = .next t

/-- R110, R117, R118, R132: under `STALL_MODEL = none` every command given within its precondition
completes, with at most 2028 micro-ops, 779 waits and 55 samples, and takes as long as its waits.  The
bounds on micro-ops and waits, and the time, rest on the spec's own decision D6 (log entry 7). -/
def Obligations.AcceptedCommandsComplete : Prop :=
  ∀ i s, Ready s → precondition i s →
    ∃ t ops, exec i s = .next t ∧ t.busy = false ∧ t.upc = 0 ∧ t.tr = ops.reverse ++ s.tr ∧
      ops.length ≤ 2028 ∧ waits ops ≤ 779 ∧ samples ops ≤ 55 ∧ t.t = s.t + waits ops * s.hp.toNat

/-- R7, R26, R29, R31, R134, R164: every step keeps the invariant, from every state that meets it. -/
def Obligations.StepKeepsTheInvariant : Prop :=
  ∀ s t, Sys2Proof.Machine.Inv s → step s = .next t → Sys2Proof.Machine.Inv t

/-- R7, R21: only `BE.SETHP` writes `HP`, and no command changes a construction constant. -/
def Obligations.OnlySetHalfPeriodWritesTheHalfPeriod : Prop :=
  ∀ i s t, exec i s = .next t →
    t.par = s.par ∧ (t.hp = s.hp ∨ ∃ us, i = .beSethp us ∧ t.hp = us)

/-- R23, R39: only `BE.BEGIN` configures the clock pin, and nothing un-configures it. -/
def Obligations.ClockPinStaysConfigured : Prop :=
  ∀ i s t, exec i s = .next t →
    t.sclm = s.sclm ∨ (i = .beBegin ∧ s.sclm = .unconf ∧ t.sclm = .out)

/-- R36, R126, R209: whatever a command does, completing or not, the trace only grows and the time grows
by the half-period for each wait. -/
def Obligations.ElapsedTimeIsTheWaits : Prop :=
  ∀ i s t, exec i s = .next t →
    ∃ ops, t.tr = ops.reverse ++ s.tr ∧ t.t = s.t + waits ops * s.hp.toNat

/-- R27, R30, R34, R170: what a command does does not depend on what earlier commands left in the operand
latches, `RESP` or the sequencer's temporaries: from two states that agree on everything else it is
refused alike, or does the same on the lines, to the slave and in time, and answers the same. -/
def Obligations.LeftoverStateIsNeverRead : Prop :=
  ∀ i s u, SameBlock s u →
    (∃ r, exec i s = .refused r ∧ exec i u = .refused r) ∨
    ∃ t v, exec i s = .next t ∧ exec i u = .next v ∧ SameBlock t v ∧ t.t + u.t = v.t + s.t ∧
      (s.busy = false → t.busy = false → t.resp = v.resp)

/-- R160, R169, R170: a command that fails completes: it answers `(0, 0x00)`, the block is idle, and the
lines, `HP`, the constants and the words to come are as before.  Nothing is said of the operand latches
(loaded for a null destination too, log entry 14, where R169 says only `RESP`), of `SH`, `BITI` and
`ACKF`, of the trace and the time, or of the slave. -/
def Obligations.FailureIsOnlyAResponse : Prop :=
  ∀ i s t, Ready s → exec i s = .next t → t.resp.ok = false →
    t.resp = ⟨false, 0x00⟩ ∧ t.busy = false ∧ t.upc = 0 ∧ t.sclm = s.sclm ∧ t.sclo = s.sclo ∧
    t.sdam = s.sdam ∧ t.hp = s.hp ∧ t.par = s.par ∧ t.offered = s.offered

/-! ### For given answers of the slave -/

/-- R116, V15 to V17, V21 to V23: the first sample that is 1 ends the frame, by how many were 0 before
it; the slave is asked for nothing more.  That the frame ends at once is the spec's own decision D31
(log entry 16); the waits in the traces are decision D6 (log entry 7). -/
def Obligations.FirstMissingAcknowledgementEndsTheFrame : Prop :=
  ∀ addr reg val s rest, ReadyToTransfer s →
    (s.slave = .oracle (true :: rest) →
      (∃ t, exec (.beWr8 addr reg val) s = .next t ∧ t.slave = .oracle rest ∧ t.resp = ⟨false, 0x00⟩ ∧
        t.tr = (writeOps addr reg val (.error .nackAddrW)).reverse ++ s.tr) ∧
      ∃ t, exec (.beRd8 addr reg false) s = .next t ∧ t.slave = .oracle rest ∧ t.resp = ⟨false, 0x00⟩ ∧
        t.tr = (readOps addr reg (.error .nackAddrW)).reverse ++ s.tr) ∧
    (s.slave = .oracle (false :: true :: rest) →
      (∃ t, exec (.beWr8 addr reg val) s = .next t ∧ t.slave = .oracle rest ∧ t.resp = ⟨false, 0x00⟩ ∧
        t.tr = (writeOps addr reg val (.error .nackReg)).reverse ++ s.tr) ∧
      ∃ t, exec (.beRd8 addr reg false) s = .next t ∧ t.slave = .oracle rest ∧ t.resp = ⟨false, 0x00⟩ ∧
        t.tr = (readOps addr reg (.error .nackReg)).reverse ++ s.tr) ∧
    (s.slave = .oracle (false :: false :: true :: rest) →
      (∃ t, exec (.beWr8 addr reg val) s = .next t ∧ t.slave = .oracle rest ∧ t.resp = ⟨false, 0x00⟩ ∧
        t.tr = (writeOps addr reg val (.error .nackData)).reverse ++ s.tr) ∧
      ∃ t, exec (.beRd8 addr reg false) s = .next t ∧ t.slave = .oracle rest ∧ t.resp = ⟨false, 0x00⟩ ∧
        t.tr = (readOps addr reg (.error .nackAddrR)).reverse ++ s.tr)

/-- R114, E1: a slave that acknowledges every byte makes `BE.WR8` succeed, having been sent the address
byte, the register and the value, each followed by one sample.  The waits in the trace are the spec's
own decision D6 (log entry 7). -/
def Obligations.AcknowledgedWriteSendsItsBytes : Prop :=
  ∀ addr reg val s rest, ReadyToTransfer s → s.slave = .oracle (false :: false :: false :: rest) →
    ∃ t, exec (.beWr8 addr reg val) s = .next t ∧ t.slave = .oracle rest ∧ t.resp = ⟨true, 0x00⟩ ∧
      t.tr = (writeOps addr reg val (.ok ())).reverse ++ s.tr

/-- R115, E2: `BE.RD8` returns exactly the byte the slave drives during the eight data samples, most
significant bit first, and ends it with a not-acknowledge.  The waits in the trace are the spec's own
decision D6 (log entry 7). -/
def Obligations.ReadReturnsTheDrivenByte : Prop :=
  ∀ addr reg d s rest, ReadyToTransfer s →
    s.slave = .oracle (false :: false :: false :: (wireBits d ++ rest)) →
    ∃ t, exec (.beRd8 addr reg false) s = .next t ∧ t.slave = .oracle rest ∧ t.resp = ⟨true, d⟩ ∧
      t.tr = (readOps addr reg (.ok d)).reverse ++ s.tr

/-- R141, R172, E5: of all that `DC.BEGIN` sends only the acknowledgements of its first write reach the
answer; without them nothing more is sent.  That the cut frame ends at once is the spec's own decision
D31 (log entry 16); the waits in the traces are decision D6 (log entry 7). -/
def Obligations.InitialisationReportsOnlyItsFirstWrite : Prop :=
  ∀ s rest, ReadyToTransfer s →
    (s.slave = .oracle (true :: rest) →
      ∃ t, exec .dcBegin s = .next t ∧ t.slave = .oracle rest ∧ t.resp = ⟨false, 0x00⟩ ∧
        t.tr = (writeOps s.par.devAddr 0x01 0x00 (.error .nackAddrW)).reverse ++ s.tr) ∧
    (s.slave = .oracle (false :: true :: rest) →
      ∃ t, exec .dcBegin s = .next t ∧ t.slave = .oracle rest ∧ t.resp = ⟨false, 0x00⟩ ∧
        t.tr = (writeOps s.par.devAddr 0x01 0x00 (.error .nackReg)).reverse ++ s.tr) ∧
    (s.slave = .oracle (false :: false :: true :: rest) →
      ∃ t, exec .dcBegin s = .next t ∧ t.slave = .oracle rest ∧ t.resp = ⟨false, 0x00⟩ ∧
        t.tr = (writeOps s.par.devAddr 0x01 0x00 (.error .nackData)).reverse ++ s.tr) ∧
    (s.slave = .oracle (false :: false :: false :: rest) →
      ∃ t, exec .dcBegin s = .next t ∧ t.resp = ⟨true, 0x00⟩)

/-! ### With the reference slave, which is test apparatus (R67) -/

/-- R57, R63, R64, R114: `BE.WR8` to the reference slave's address stores the byte in the register, if it
is writable, and in no other; to another address it stores nothing and fails. -/
def Obligations.WriteReachesTheAddressedRegister : Prop :=
  ∀ addr reg val s r, ReadyToTransfer s → s.slave = .reference r → r.rf.wf →
    ∃ t r', exec (.beWr8 addr reg val) s = .next t ∧ t.slave = .reference r' ∧ r.sameDevice r' ∧
      t.resp = ⟨r.hears addr, 0x00⟩ ∧ r'.ptr = (if r.hears addr then reg else r.ptr) ∧
      ∀ q, r'.rf.read q = if r.hears addr then r.after reg val q else r.rf.read q

/-- R63 to R65, R115, R148: a read answers the register's byte and stores nothing; from an address that
is not the reference slave's it fails. -/
def Obligations.ReadAnswersTheAddressedRegister : Prop :=
  ∀ s r, ReadyToTransfer s → s.slave = .reference r →
    (∀ addr reg, ∃ t r', exec (.beRd8 addr reg false) s = .next t ∧ t.slave = .reference r' ∧
      r.sameDevice r' ∧ r'.rf = r.rf ∧ r'.ptr = (if r.hears addr then reg else r.ptr) ∧
      t.resp = if r.hears addr then ⟨true, r.rf.read reg⟩ else ⟨false, 0x00⟩) ∧
    ∃ t r', exec .dcRdstatus s = .next t ∧ t.slave = .reference r' ∧ r.sameDevice r' ∧ r'.rf = r.rf ∧
      r'.ptr = (if r.hears s.par.devAddr then 0x00 else r.ptr) ∧
      t.resp = if r.hears s.par.devAddr then ⟨true, r.rf.read 0x00⟩ else ⟨false, 0x00⟩

/-- R64, R143 to R147: each Device Controller command that is one write stores its byte in its register
of the reference slave at `DEVADDR`, and in no other, and answers `(1, 0x00)` either way. -/
def Obligations.ControllerWritesReachTheirRegister : Prop :=
  ∀ i reg val s r, controllerStore i = some (reg, val) → ReadyToTransfer s → s.slave = .reference r →
    r.rf.wf →
    ∃ t r', exec i s = .next t ∧ t.slave = .reference r' ∧ r.sameDevice r' ∧ t.resp = ⟨true, 0x00⟩ ∧
      r'.ptr = (if r.hears s.par.devAddr then reg else r.ptr) ∧
      ∀ q, r'.rf.read q = if r.hears s.par.devAddr then r.after reg val q else r.rf.read q

/-- R52, R113, R141 to R149: no command stores to any register of the reference slave but those its rule
names; a command that stores nothing leaves every register as it was. -/
def Obligations.StoresOnlyToTheCommandsRegisters : Prop :=
  ∀ i s t r, Ready s → s.slave = .reference r → r.rf.wf → exec i s = .next t →
    ∃ r', t.slave = .reference r' ∧ r.sameDevice r' ∧
      ∀ q, q ∉ storedRegisters i → r'.rf.read q = r.rf.read q

/-- R59, V27: a read after a write to the same writable register of the reference slave answers the byte
written. -/
def Obligations.ReadBackAfterWrite : Prop :=
  ∀ addr reg val s r, ReadyToTransfer s → s.slave = .reference r → r.rf.wf → r.hears addr = true →
    reg ∉ r.ro →
    ∃ t u, exec (.beWr8 addr reg val) s = .next t ∧ exec (.beRd8 addr reg false) t = .next u ∧
      u.resp = ⟨true, val⟩

/-- R141, V30, V31: with the reference slave at `DEVADDR`, its registers writable, `DC.BEGIN` runs all
thirteen transactions and leaves the defaults in the eleven registers it writes and every other register
as it was; with no such slave it sends the one address byte and stores nothing.  The order, the forced
bits, the condition of a rewrite and the early end are the spec's own decisions D12, D13, D14 and D31
(log entry 16); the waits in the traces are decision D6 (log entry 7). -/
def Obligations.InitialisationLeavesTheDefaults : Prop :=
  ∀ s r, ReadyToTransfer s → s.slave = .reference r → r.rf.wf →
    (∀ q, q ∈ initialisedRegisters → q ∉ r.ro) →
    ∃ t r', exec .dcBegin s = .next t ∧ t.slave = .reference r' ∧ r.sameDevice r' ∧
      t.resp = ⟨r.hears s.par.devAddr, 0x00⟩ ∧
      (r.hears s.par.devAddr = true →
        r'.ptr = 0x1D ∧
        t.tr = (beginOps s.par (.allAcked (r.rf.read 0x1A) (r.rf.read 0x1D))).reverse ++ s.tr ∧
        ∀ q, r'.rf.read q = initialised s.par r.rf.read q) ∧
      (r.hears s.par.devAddr = false →
        t.tr = (writeOps s.par.devAddr 0x01 0x00 (.error .nackAddrW)).reverse ++ s.tr ∧
        ∀ q, r'.rf.read q = r.rf.read q)

end
end

