-- ==== Sys2Proof/Laws/Memory.lean ====
section
/-! SUPPORT. The laws of the memory (R51, R62): a read after a write, and the canonical form. -/

namespace Sys2Proof.Machine

theorem cons_wf {k : Nat} {v : Byte} {m : Memory} (hk : k < 256) (hm : Memory.wf m)
    (hlt : ∀ x ∈ m, k < x.1) : (Memory.cons k v m).wf := by
  unfold Memory.cons
  split
  · exact hm
  · exact ⟨List.pairwise_cons.2 ⟨hlt, hm.1⟩, by
      intro x hx
      rcases List.mem_cons.1 hx with rfl | hx
      · exact ⟨hk, by assumption⟩
      · exact hm.2 x hx⟩

theorem tail_wf {x : Host.Cell} {m : Memory} (h : Memory.wf (x :: m)) : Memory.wf m :=
  ⟨(List.pairwise_cons.1 h.1).2, fun y hy => h.2 y (List.mem_cons_of_mem _ hy)⟩

/-- A cell after a write is the written one or one from before. -/
theorem mem_write {m : Memory} {r v : Byte} {y : Host.Cell} (h : y ∈ m.write r v) :
    y = (r.toNat, v) ∨ y ∈ m := by
  induction m with
  | nil =>
    simp only [Memory.write, Memory.cons] at h
    split at h <;> simp_all
  | cons x m ih =>
    obtain ⟨k, x⟩ := x
    simp only [Memory.write, Memory.cons] at h
    split at h
    · split at h <;> simp_all
    · split at h
      · split at h <;> simp_all
        rcases h with rfl | h <;> simp_all
      · rcases List.mem_cons.1 h with rfl | h
        · simp
        · rcases ih h with rfl | h
          · simp
          · simp [h]

/-- A write keeps the canonical form. -/
theorem write_wf {m : Memory} (hm : m.wf) (r v : Byte) : (m.write r v).wf := by
  induction m with
  | nil => exact cons_wf r.isLt hm (by simp)
  | cons x m ih =>
    obtain ⟨k, x⟩ := x
    have hlt : ∀ y ∈ m, k < y.1 := (List.pairwise_cons.1 hm.1).1
    simp only [Memory.write]
    split
    · refine cons_wf r.isLt hm ?_
      intro y hy
      rcases List.mem_cons.1 hy with rfl | hy
      · assumption
      · have := hlt y hy; omega
    · split
      · exact cons_wf (by have := r.isLt; omega) (tail_wf hm) hlt
      · have hw := ih (tail_wf hm)
        refine ⟨List.pairwise_cons.2 ⟨?_, hw.1⟩, ?_⟩
        · intro y hy
          rcases mem_write hy with rfl | hy
          · simp only; omega
          · exact hlt y hy
        · intro y hy
          rcases List.mem_cons.1 hy with rfl | hy
          · exact hm.2 _ (by simp)
          · exact hw.2 y hy

/-- Below its first cell a memory reads as an unlisted address. -/
theorem read_below {m : Memory} {q : Byte} (h : ∀ x ∈ m, q.toNat < x.1) : m.read q = 0 := by
  induction m with
  | nil => rfl
  | cons x m ih =>
    have hx := h x (by simp)
    have : ¬ x.1 = q.toNat := by omega
    simp only [Memory.read, this, if_false]
    exact ih fun y hy => h y (by simp [hy])

theorem read_cons {k : Nat} {v : Byte} {m : Memory} {q : Byte} (h : k = q.toNat → m.read q = 0) :
    (Memory.cons k v m).read q = if k = q.toNat then v else m.read q := by
  unfold Memory.cons
  split
  · split <;> simp_all
  · rfl

/-- A read after a write gives the written byte at its register and the byte from before at every
other. -/
theorem read_write {m : Memory} (hm : m.wf) (r v q : Byte) :
    (m.write r v).read q = if q = r then v else m.read q := by
  have hq : ∀ {n : Nat}, n = r.toNat → (n = q.toNat ↔ q = r) := by
    intro n hn; subst hn
    exact ⟨fun h => BitVec.eq_of_toNat_eq h.symm, fun h => by rw [h]⟩
  induction m with
  | nil =>
    simp only [Memory.write]
    rw [read_cons (by intro _; rfl)]
    simp only [hq rfl]
  | cons x m ih =>
    obtain ⟨k, x⟩ := x
    have hlt : ∀ y ∈ m, k < y.1 := (List.pairwise_cons.1 hm.1).1
    simp only [Memory.write]
    split
    · rename_i hrk
      rw [read_cons]
      · simp only [hq rfl]
      · intro he
        refine read_below ?_
        intro y hy
        rcases List.mem_cons.1 hy with rfl | hy
        · simpa [← he] using hrk
        · have := hlt y hy; omega
    · split
      · rename_i hrk
        rw [read_cons]
        · simp only [Memory.read]
          by_cases h : q = r
          · simp [h, ← hrk]
          · have : ¬ k = q.toNat := fun hk => h ((hq hrk.symm).1 hk)
            simp [h, this]
        · intro he
          exact read_below fun y hy => by have := hlt y hy; omega
      · rename_i hrk
        simp only [Memory.read, ih (tail_wf hm)]
        by_cases h : q = r
        · subst h
          have : ¬ k = q.toNat := by omega
          simp [this]
        · simp [h]

/-- A canonical memory reads, at each address it lists, the byte it lists. -/
theorem read_listed {m : Memory} (hm : m.wf) {k : Nat} {v : Byte} (h : (k, v) ∈ m) :
    m.read (BitVec.ofNat 8 k) = v := by
  induction m with
  | nil => simp at h
  | cons x m ih =>
    obtain ⟨j, x⟩ := x
    have hk : k < 256 := (hm.2 _ h).1
    have hn : (BitVec.ofNat 8 k).toNat = k := by simp; omega
    simp only [Memory.read, hn]
    rcases List.mem_cons.1 h with he | h
    · cases he; simp
    · have := (List.pairwise_cons.1 hm.1).1 _ h
      have : ¬ j = k := by simp only at this; omega
      simp [this, ih (tail_wf hm) h]

/-! ### The reference slave's rules keep the canonical form -/

theorem store_wf {r : RefSlave} (h : r.rf.wf) (b : Byte) : (r.store b).rf.wf := by
  unfold RefSlave.store
  split
  · exact h
  · exact write_wf h _ _

theorem onAck_wf {r : RefSlave} (h : r.rf.wf) (b : Byte) : (r.onAck b).2.rf.wf := by
  unfold RefSlave.onAck
  repeat' split
  all_goals first | exact h | exact store_wf h b

end Sys2Proof.Machine
end

