-- ==== Sys2Proof/Laws/State.lean ====
section
/-! SUPPORT. What each named update of the state leaves in each field. -/

namespace Sys2Proof.Machine

/-! ### `record` -/

@[simp] theorem record_par (op : MicroOp) (s : State) : (record op s).par = s.par := rfl
@[simp] theorem record_hp (op : MicroOp) (s : State) : (record op s).hp = s.hp := rfl
@[simp] theorem record_sclm (op : MicroOp) (s : State) : (record op s).sclm = s.sclm := rfl
@[simp] theorem record_sclo (op : MicroOp) (s : State) : (record op s).sclo = s.sclo := rfl
@[simp] theorem record_sdam (op : MicroOp) (s : State) : (record op s).sdam = s.sdam := rfl
@[simp] theorem record_opc (op : MicroOp) (s : State) : (record op s).opc = s.opc := rfl
@[simp] theorem record_a (op : MicroOp) (s : State) : (record op s).a = s.a := rfl
@[simp] theorem record_b (op : MicroOp) (s : State) : (record op s).b = s.b := rfl
@[simp] theorem record_c (op : MicroOp) (s : State) : (record op s).c = s.c := rfl
@[simp] theorem record_resp (op : MicroOp) (s : State) : (record op s).resp = s.resp := rfl
@[simp] theorem record_upc (op : MicroOp) (s : State) : (record op s).upc = s.upc + 1 := rfl
@[simp] theorem record_sh (op : MicroOp) (s : State) : (record op s).sh = s.sh := rfl
@[simp] theorem record_biti (op : MicroOp) (s : State) : (record op s).biti = s.biti := rfl
@[simp] theorem record_ackf (op : MicroOp) (s : State) : (record op s).ackf = s.ackf := rfl
@[simp] theorem record_busy (op : MicroOp) (s : State) : (record op s).busy = s.busy := rfl
@[simp] theorem record_tr (op : MicroOp) (s : State) : (record op s).tr = op :: s.tr := rfl
@[simp] theorem record_t (op : MicroOp) (s : State) : (record op s).t = s.t := rfl
@[simp] theorem record_slave (op : MicroOp) (s : State) : (record op s).slave = s.slave := rfl
@[simp] theorem record_hangAfter (op : MicroOp) (s : State) : (record op s).hangAfter = s.hangAfter := rfl
@[simp] theorem record_offered (op : MicroOp) (s : State) : (record op s).offered = s.offered := rfl

/-! ### `accept` -/

@[simp] theorem accept_par (w : CommandWord) (s : State) : (accept w s).par = s.par := rfl
@[simp] theorem accept_hp (w : CommandWord) (s : State) : (accept w s).hp = s.hp := rfl
@[simp] theorem accept_sclm (w : CommandWord) (s : State) : (accept w s).sclm = s.sclm := rfl
@[simp] theorem accept_sclo (w : CommandWord) (s : State) : (accept w s).sclo = s.sclo := rfl
@[simp] theorem accept_sdam (w : CommandWord) (s : State) : (accept w s).sdam = s.sdam := rfl
@[simp] theorem accept_opc (w : CommandWord) (s : State) : (accept w s).opc = fieldOpc w := rfl
@[simp] theorem accept_a (w : CommandWord) (s : State) : (accept w s).a = fieldA w := rfl
@[simp] theorem accept_b (w : CommandWord) (s : State) : (accept w s).b = fieldB w := rfl
@[simp] theorem accept_c (w : CommandWord) (s : State) : (accept w s).c = fieldC w := rfl
@[simp] theorem accept_resp (w : CommandWord) (s : State) : (accept w s).resp = s.resp := rfl
@[simp] theorem accept_upc (w : CommandWord) (s : State) : (accept w s).upc = 0 := rfl
@[simp] theorem accept_sh (w : CommandWord) (s : State) : (accept w s).sh = s.sh := rfl
@[simp] theorem accept_biti (w : CommandWord) (s : State) : (accept w s).biti = s.biti := rfl
@[simp] theorem accept_ackf (w : CommandWord) (s : State) : (accept w s).ackf = s.ackf := rfl
@[simp] theorem accept_busy (w : CommandWord) (s : State) : (accept w s).busy = true := rfl
@[simp] theorem accept_tr (w : CommandWord) (s : State) : (accept w s).tr = s.tr := rfl
@[simp] theorem accept_t (w : CommandWord) (s : State) : (accept w s).t = s.t := rfl
@[simp] theorem accept_slave (w : CommandWord) (s : State) : (accept w s).slave = s.slave := rfl
@[simp] theorem accept_hangAfter (w : CommandWord) (s : State) : (accept w s).hangAfter = s.hangAfter := rfl
@[simp] theorem accept_offered (w : CommandWord) (s : State) : (accept w s).offered = s.offered := rfl

/-! ### `complete` -/

@[simp] theorem complete_par (r : Resp) (s : State) : (complete r s).par = s.par := rfl
@[simp] theorem complete_hp (r : Resp) (s : State) : (complete r s).hp = s.hp := rfl
@[simp] theorem complete_sclm (r : Resp) (s : State) : (complete r s).sclm = s.sclm := rfl
@[simp] theorem complete_sclo (r : Resp) (s : State) : (complete r s).sclo = s.sclo := rfl
@[simp] theorem complete_sdam (r : Resp) (s : State) : (complete r s).sdam = s.sdam := rfl
@[simp] theorem complete_opc (r : Resp) (s : State) : (complete r s).opc = s.opc := rfl
@[simp] theorem complete_a (r : Resp) (s : State) : (complete r s).a = s.a := rfl
@[simp] theorem complete_b (r : Resp) (s : State) : (complete r s).b = s.b := rfl
@[simp] theorem complete_c (r : Resp) (s : State) : (complete r s).c = s.c := rfl
@[simp] theorem complete_resp (r : Resp) (s : State) : (complete r s).resp = r := rfl
@[simp] theorem complete_upc (r : Resp) (s : State) : (complete r s).upc = 0 := rfl
@[simp] theorem complete_sh (r : Resp) (s : State) : (complete r s).sh = s.sh := rfl
@[simp] theorem complete_biti (r : Resp) (s : State) : (complete r s).biti = s.biti := rfl
@[simp] theorem complete_ackf (r : Resp) (s : State) : (complete r s).ackf = s.ackf := rfl
@[simp] theorem complete_busy (r : Resp) (s : State) : (complete r s).busy = false := rfl
@[simp] theorem complete_tr (r : Resp) (s : State) : (complete r s).tr = s.tr := rfl
@[simp] theorem complete_t (r : Resp) (s : State) : (complete r s).t = s.t := rfl
@[simp] theorem complete_slave (r : Resp) (s : State) : (complete r s).slave = s.slave := rfl
@[simp] theorem complete_hangAfter (r : Resp) (s : State) : (complete r s).hangAfter = s.hangAfter := rfl
@[simp] theorem complete_offered (r : Resp) (s : State) : (complete r s).offered = s.offered := rfl

/-! ### `rejectWord` -/

@[simp] theorem rejectWord_par (s : State) : (rejectWord s).par = s.par := rfl
@[simp] theorem rejectWord_hp (s : State) : (rejectWord s).hp = s.hp := rfl
@[simp] theorem rejectWord_sclm (s : State) : (rejectWord s).sclm = s.sclm := rfl
@[simp] theorem rejectWord_sclo (s : State) : (rejectWord s).sclo = s.sclo := rfl
@[simp] theorem rejectWord_sdam (s : State) : (rejectWord s).sdam = s.sdam := rfl
@[simp] theorem rejectWord_opc (s : State) : (rejectWord s).opc = s.opc := rfl
@[simp] theorem rejectWord_a (s : State) : (rejectWord s).a = s.a := rfl
@[simp] theorem rejectWord_b (s : State) : (rejectWord s).b = s.b := rfl
@[simp] theorem rejectWord_c (s : State) : (rejectWord s).c = s.c := rfl
@[simp] theorem rejectWord_resp (s : State) : (rejectWord s).resp = respFail := rfl
@[simp] theorem rejectWord_upc (s : State) : (rejectWord s).upc = s.upc := rfl
@[simp] theorem rejectWord_sh (s : State) : (rejectWord s).sh = s.sh := rfl
@[simp] theorem rejectWord_biti (s : State) : (rejectWord s).biti = s.biti := rfl
@[simp] theorem rejectWord_ackf (s : State) : (rejectWord s).ackf = s.ackf := rfl
@[simp] theorem rejectWord_busy (s : State) : (rejectWord s).busy = s.busy := rfl
@[simp] theorem rejectWord_tr (s : State) : (rejectWord s).tr = s.tr := rfl
@[simp] theorem rejectWord_t (s : State) : (rejectWord s).t = s.t := rfl
@[simp] theorem rejectWord_slave (s : State) : (rejectWord s).slave = s.slave := rfl
@[simp] theorem rejectWord_hangAfter (s : State) : (rejectWord s).hangAfter = s.hangAfter := rfl
@[simp] theorem rejectWord_offered (s : State) : (rejectWord s).offered = s.offered := rfl

/-! ### `offerFirst` -/

@[simp] theorem offerFirst_par (w : CommandWord) (s : State) : (offerFirst w s).par = s.par := rfl
@[simp] theorem offerFirst_hp (w : CommandWord) (s : State) : (offerFirst w s).hp = s.hp := rfl
@[simp] theorem offerFirst_sclm (w : CommandWord) (s : State) : (offerFirst w s).sclm = s.sclm := rfl
@[simp] theorem offerFirst_sclo (w : CommandWord) (s : State) : (offerFirst w s).sclo = s.sclo := rfl
@[simp] theorem offerFirst_sdam (w : CommandWord) (s : State) : (offerFirst w s).sdam = s.sdam := rfl
@[simp] theorem offerFirst_opc (w : CommandWord) (s : State) : (offerFirst w s).opc = s.opc := rfl
@[simp] theorem offerFirst_a (w : CommandWord) (s : State) : (offerFirst w s).a = s.a := rfl
@[simp] theorem offerFirst_b (w : CommandWord) (s : State) : (offerFirst w s).b = s.b := rfl
@[simp] theorem offerFirst_c (w : CommandWord) (s : State) : (offerFirst w s).c = s.c := rfl
@[simp] theorem offerFirst_resp (w : CommandWord) (s : State) : (offerFirst w s).resp = s.resp := rfl
@[simp] theorem offerFirst_upc (w : CommandWord) (s : State) : (offerFirst w s).upc = 0 := rfl
@[simp] theorem offerFirst_sh (w : CommandWord) (s : State) : (offerFirst w s).sh = s.sh := rfl
@[simp] theorem offerFirst_biti (w : CommandWord) (s : State) : (offerFirst w s).biti = s.biti := rfl
@[simp] theorem offerFirst_ackf (w : CommandWord) (s : State) : (offerFirst w s).ackf = s.ackf := rfl
@[simp] theorem offerFirst_busy (w : CommandWord) (s : State) : (offerFirst w s).busy = false := rfl
@[simp] theorem offerFirst_tr (w : CommandWord) (s : State) : (offerFirst w s).tr = s.tr := rfl
@[simp] theorem offerFirst_t (w : CommandWord) (s : State) : (offerFirst w s).t = s.t := rfl
@[simp] theorem offerFirst_slave (w : CommandWord) (s : State) : (offerFirst w s).slave = s.slave := rfl
@[simp] theorem offerFirst_hangAfter (w : CommandWord) (s : State) : (offerFirst w s).hangAfter = s.hangAfter := rfl
@[simp] theorem offerFirst_offered (w : CommandWord) (s : State) : (offerFirst w s).offered = w :: s.offered := rfl

end Sys2Proof.Machine
end

