-- ==== Sys2Proof/Laws/Ops.lean ====
section
/-! SUPPORT. What each micro-op, cell and bus primitive can do, said once (R120 to R134). -/

namespace Sys2Proof.Machine

/-! ### Sequencing -/

/-- A sequence ended in a state with `P`, or hangs in one with `H`. -/
inductive Ends {α : Type} : EStateM.Result Hang State α → (α → State → Prop) → (State → Prop) → Prop where
  | ok {a : α} {t : State} {P : α → State → Prop} {H : State → Prop} (h : P a t) : Ends (.ok a t) P H
  | hung {e : Hang} {t : State} {P : α → State → Prop} {H : State → Prop} (h : H t) : Ends (.error e t) P H

variable {α β : Type} {s t u : State}

theorem bind_ok {x : Proc α} {f : α → Proc β} {a : α} (h : x s = .ok a t) : (x >>= f) s = f a t := by
  simp only [bind, EStateM.bind, h]

theorem bind_error {x : Proc α} {f : α → Proc β} {e : Hang} (h : x s = .error e t) :
    (x >>= f) s = .error e t := by
  simp only [bind, EStateM.bind, h]

@[simp] theorem pure_run (a : α) : (pure a : Proc α) s = .ok a s := rfl

theorem ends_bind {x : Proc α} {f : α → Proc β} {P : β → State → Prop} {H : State → Prop}
    (h : Ends (x s) (fun a t => Ends (f a t) P H) H) : Ends ((x >>= f) s) P H := by
  generalize hx : x s = r at h
  cases h with
  | ok h => rw [bind_ok hx]; exact h
  | hung h => rw [bind_error hx]; exact .hung h

theorem ends_mono {r : EStateM.Result Hang State α} {P Q : α → State → Prop} {H K : State → Prop}
    (h : Ends r P H) (hP : ∀ a t, P a t → Q a t) (hH : ∀ t, H t → K t) : Ends r Q K := by
  cases h with
  | ok h => exact .ok (hP _ _ h)
  | hung h => exact .hung (hH _ h)

/-- A sequence known to end in a state. -/
theorem ends_of_ok {r : EStateM.Result Hang State α} {a : α} {P : α → State → Prop} {H : State → Prop}
    (hr : r = .ok a t) (h : P a t) : Ends r P H := hr ▸ .ok h

/-! ### What running micro-ops keeps -/

@[simp] theorem waits_nil : waits [] = 0 := rfl

@[simp] theorem waits_append (x y : List MicroOp) : waits (x ++ y) = waits x + waits y :=
  List.count_append ..

theorem Ran.refl (s : State) : Ran [] s s := by constructor <;> simp

theorem Ran.trans {x y : List MicroOp} (h : Ran x s t) (k : Ran y t u) : Ran (x ++ y) s u where
  tr := by simp [k.tr, h.tr]
  upc := by simp [k.upc, h.upc, Nat.add_assoc]
  time := by simp [k.time, h.time, h.hp, Nat.add_mul, Nat.add_assoc]
  par := k.par.trans h.par
  hp := k.hp.trans h.hp
  sclm := k.sclm.trans h.sclm
  opc := k.opc.trans h.opc
  a := k.a.trans h.a
  b := k.b.trans h.b
  c := k.c.trans h.c
  resp := k.resp.trans h.resp
  busy := k.busy.trans h.busy
  offered := k.offered.trans h.offered

/-- Where `SH`, `BITI`, `ACKF`, the slave and the lines start from is no matter to `Ran`. -/
theorem Ran.temporaries {x : List MicroOp} {sclo : Bool} {sdam : SdaMode} {sh : Byte} {biti : BitVec 4}
    {ackf : Bool} {v : Slave} {g : Option Nat}
    (h : Ran x
      { s with sclo := sclo, sdam := sdam, sh := sh, biti := biti, ackf := ackf, slave := v, hangAfter := g }
      t) : Ran x s t :=
  ⟨h.tr, h.upc, h.time, h.par, h.hp, h.sclm, h.opc, h.a, h.b, h.c, h.resp, h.busy, h.offered⟩

/-- The state of a block that hangs in a sample, reached from `s` by fewer than `n` micro-ops: the lines
are `SCLO = 1`, `SDAM = REL`, and the next sample never completes (R164). -/
structure HungFrom (n : Nat) (s t : State) : Prop where
  ran : ∃ ops, Ran ops s t ∧ ops.length < n
  sclo : t.sclo = true
  sdam : t.sdam = .rel
  hangs : sampleHangs t = true
  slave : slaveWf s.slave → slaveWf t.slave

theorem HungFrom.after {x : List MicroOp} {n m : Nat} (h : Ran x s t)
    (hw : slaveWf s.slave → slaveWf t.slave) (k : HungFrom n t u) (hm : x.length + n ≤ m) :
    HungFrom m s u where
  ran := k.ran.elim fun y hy => ⟨x ++ y, h.trans hy.1, by have := hy.2; simp; omega⟩
  sclo := k.sclo
  sdam := k.sdam
  hangs := k.hangs
  slave := k.slave ∘ hw

theorem HungFrom.weaken {n m : Nat} (k : HungFrom n s t) (h : n ≤ m) : HungFrom m s t :=
  ⟨k.ran.elim fun y hy => ⟨y, hy.1, by have := hy.2; omega⟩, k.sclo, k.sdam, k.hangs, k.slave⟩

/-- `STALL_MODEL = none`: no sample hangs (R125). -/
theorem sampleHangs_none (h : s.par.stallModel = .none) : sampleHangs s = false := by
  simp [sampleHangs, h]

/-- A hung block's stall model admits the hang. -/
theorem stallModel_of_hangs (h : sampleHangs s = true) : s.par.stallModel = .sampleMayHang := by
  simp [sampleHangs] at h; exact h.1

/-! ### The slave's part of a sample -/

/-- The slave answers `level` to `q` and becomes `v`. -/
def Answers (v : Slave) (q : Query) (level : Bool) (v' : Slave) : Prop :=
  ∃ tr, v.answer tr q = (level, v')

theorem answers_script {x level : Bool} {script : List Bool} {q : Query} {v' : Slave}
    (h : Answers (.oracle (x :: script)) q level v') : level = x ∧ v' = .oracle script := by
  obtain ⟨_, h⟩ := h
  simp only [Slave.answer, Prod.mk.injEq] at h
  exact ⟨h.1.symm, h.2.symm⟩

theorem answers_ack_reference {r : RefSlave} {b : Byte} {level : Bool} {v' : Slave}
    (h : Answers (.reference r) (.ack b) level v') :
    level = (r.onAck b).1 ∧ v' = .reference (r.onAck b).2 := by
  obtain ⟨_, h⟩ := h
  simp only [Slave.answer, Prod.mk.injEq] at h
  exact ⟨h.1.symm, h.2.symm⟩

theorem answers_data_reference {r : RefSlave} {i : Nat} {level : Bool} {v' : Slave}
    (h : Answers (.reference r) (.data i) level v') : level = r.onData i ∧ v' = .reference r := by
  obtain ⟨_, h⟩ := h
  simp only [Slave.answer, Prod.mk.injEq] at h
  exact ⟨h.1.symm, h.2.symm⟩

theorem answers_wf {v v' : Slave} {q : Query} {level : Bool} (h : Answers v q level v')
    (hv : slaveWf v) : slaveWf v' := by
  obtain ⟨tr, h⟩ := h
  cases v with
  | oracle script => cases script <;> simp only [Slave.answer, Prod.mk.injEq] at h <;> rw [← h.2] <;> trivial
  | reference r =>
    cases q with
    | ack b => simp only [Slave.answer, Prod.mk.injEq] at h; rw [← h.2]; exact onAck_wf hv b
    | data i => simp only [Slave.answer, Prod.mk.injEq] at h; rw [← h.2]; exact hv

theorem onStart_wf {v : Slave} (h : slaveWf v) : slaveWf v.onStart := by
  cases v <;> exact h

theorem onStop_wf {v : Slave} (h : slaveWf v) : slaveWf v.onStop := by
  cases v <;> exact h

/-- With the data line released, a sample is the slave's answer (R125). -/
theorem sampleLevel_rel (h : s.sdam = .rel) (x : Bool) : sampleLevel s x = x := by
  simp [sampleLevel, sdaWire, h]

/-- With the data line pulled low by the master, a sample is 0 (R125). -/
theorem sampleLevel_low (h : s.sdam = .low) (x : Bool) : sampleLevel s x = false := by
  simp [sampleLevel, sdaWire, h]

/-- A sample on a released line: it hangs and changes nothing, or it is the slave's answer. -/
theorem smp_spec (q : Query) (h : s.sdam = .rel) :
    Ends (smp q s)
      (fun level t => Ran [.smp level] s t ∧ Answers s.slave q level t.slave ∧
        t.sclo = s.sclo ∧ t.sdam = .rel ∧ t.sh = s.sh ∧ t.biti = s.biti ∧ t.ackf = s.ackf ∧
        t.hangAfter = countSample s ∧ sampleHangs s = false)
      (fun t => t = s ∧ sampleHangs s = true) := by
  unfold smp
  cases hh : sampleHangs s with
  | true => exact .hung ⟨rfl, rfl⟩
  | false =>
    simp only [sampleLevel_rel h, Bool.false_eq_true, if_false]
    refine .ok ⟨?_, ⟨s.tr, rfl⟩, rfl, h, rfl, rfl, rfl, rfl, trivial⟩
    constructor <;> first | rfl | simp [waits]

/-! ### Start and stop -/

/-- `START()` (R127), as the repeated start too (R133). -/
theorem start_spec (s : State) :
    ∃ t, start s = .ok () t ∧ Ran startOps s t ∧ t.slave = s.slave.onStart ∧ t.sclo = false ∧
      t.sdam = .low ∧ t.sh = s.sh ∧ t.biti = s.biti ∧ t.ackf = s.ackf ∧ t.hangAfter = s.hangAfter := by
  refine ⟨_, rfl, ?_, rfl, rfl, rfl, rfl, rfl, rfl, rfl⟩
  constructor <;> first | rfl | simp [waits, startOps]

/-- `STOP()` (R128). -/
theorem stop_spec (s : State) :
    ∃ t, stop s = .ok () t ∧ Ran stopOps s t ∧ t.slave = s.slave.onStop ∧ t.sclo = true ∧
      t.sdam = .rel ∧ t.sh = s.sh ∧ t.biti = s.biti ∧ t.ackf = s.ackf ∧ t.hangAfter = s.hangAfter := by
  refine ⟨_, rfl, ?_, rfl, rfl, rfl, rfl, rfl, rfl, rfl⟩
  constructor <;> first | rfl | (simp [waits, stopOps]; try omega)

/-! ### Byte write -/

/-- Driving a bit is the micro-op `bitOp` (R88). -/
theorem driveBit_run (i : Nat) (s : State) :
    driveBit i s = .ok () (record (bitOp s.sh i) { s with sdam := if s.sh.getLsbD i then .rel else .low }) := by
  cases hb : s.sh.getLsbD i <;> simp [driveBit, getSh, bind, EStateM.bind, hb, bitOp, sdaRel, sdaLo]

/-- One data cell of a byte write (R129). -/
theorem writeCell_spec (i : Nat) (s : State) :
    ∃ t, writeCell i s = .ok () t ∧ Ran (writeCellOps s.sh i) s t ∧ t.slave = s.slave ∧ t.sclo = false ∧
      t.sh = s.sh ∧ t.ackf = s.ackf ∧ t.hangAfter = s.hangAfter ∧ t.biti = BitVec.ofNat 4 i := by
  obtain ⟨u, hu, ru, hv, hsh, hk, hg, hi⟩ : ∃ u, (do putBiti i; driveBit i : Proc Unit) s = .ok () u ∧
      Ran [bitOp s.sh i] s u ∧ u.slave = s.slave ∧ u.sh = s.sh ∧ u.ackf = s.ackf ∧
      u.hangAfter = s.hangAfter ∧ u.biti = BitVec.ofNat 4 i := by
    refine ⟨_, (bind_ok (x := putBiti i) rfl).trans (driveBit_run i _), ?_, rfl, rfl, rfl, rfl, rfl⟩
    have h1 : waits [bitOp s.sh i] = 0 := by cases h : s.sh.getLsbD i <;> simp [bitOp, h, waits]
    exact ⟨rfl, rfl, by simp [h1], rfl, rfl, rfl, rfl, rfl, rfl, rfl, rfl, rfl, rfl⟩
  obtain ⟨t, ht, rt, hv', hc, hsh', hk', hg', hi'⟩ : ∃ t, (do wait; sclHi; wait; sclLo : Proc Unit) u = .ok () t ∧
      Ran [.wait, .sclHi, .wait, .sclLo] u t ∧ t.slave = u.slave ∧ t.sclo = false ∧ t.sh = u.sh ∧
      t.ackf = u.ackf ∧ t.hangAfter = u.hangAfter ∧ t.biti = u.biti := by
    refine ⟨_, rfl, ?_, rfl, rfl, rfl, rfl, rfl, rfl⟩
    constructor <;> first | rfl | (simp [waits]; try omega)
  refine ⟨t, ?_, ru.trans rt, hv'.trans hv, hc, hsh'.trans hsh, hk'.trans hk, hg'.trans hg, hi'.trans hi⟩
  have hb : driveBit i { s with biti := BitVec.ofNat 4 i } = .ok () u := hu
  exact (bind_ok (x := putBiti i) rfl).trans ((bind_ok hb).trans ht)

/-- The data cells of a byte write, with the last cell's number left in `BITI`. -/
theorem writeCells_spec (is : List Nat) (s : State) :
    ∃ t, writeCells is s = .ok () t ∧ Ran (is.flatMap (writeCellOps s.sh)) s t ∧ t.slave = s.slave ∧
      t.sh = s.sh ∧ t.ackf = s.ackf ∧ t.hangAfter = s.hangAfter ∧
      t.biti = (is.getLast?.map (BitVec.ofNat 4)).getD s.biti := by
  induction is generalizing s with
  | nil => exact ⟨s, rfl, Ran.refl s, rfl, rfl, rfl, rfl, rfl⟩
  | cons i is ih =>
    obtain ⟨t, ht, rt, hv, -, hsh, hk, hg, hi⟩ := writeCell_spec i s
    obtain ⟨u, hu, ru, hv', hsh', hk', hg', hi'⟩ := ih t
    refine ⟨u, by rw [writeCells, bind_ok ht, hu], ?_, hv'.trans hv, hsh'.trans hsh, hk'.trans hk,
      hg'.trans hg, ?_⟩
    · rw [hsh] at ru; exact rt.trans ru
    · rw [hi', hi]; cases is <;> simp [List.getLast?_cons]

/-- The micro-ops of the acknowledgement cell (R129). -/
def ackCellOps (level : Bool) : List MicroOp := [.sdaRel, .wait, .sclHi, .wait, .smp level, .sclLo]

/-- The acknowledgement cell of a byte write (R129). -/
theorem ackCell_spec (b : Byte) (s : State) :
    Ends (ackCell b s)
      (fun k t => Ran (ackCellOps (!k)) s t ∧ Answers s.slave (.ack b) (!k) t.slave ∧ t.sclo = false ∧
        t.sdam = .rel ∧ t.sh = s.sh ∧ t.biti = s.biti ∧ t.ackf = k ∧ t.hangAfter = countSample s ∧
        sampleHangs s = false)
      (fun t => HungFrom 6 s t ∧ t.slave = s.slave ∧ sampleHangs s = true) := by
  obtain ⟨t, ht, rt, et⟩ : ∃ t, (do sdaRel; wait; sclHi; wait : Proc Unit) s = .ok () t ∧
      Ran [.sdaRel, .wait, .sclHi, .wait] s t ∧
      t =
        { s with
          sdam := .rel, sclo := true, upc := s.upc + 4, t := s.t + s.hp.toNat + s.hp.toNat,
          tr := .wait :: .sclHi :: .wait :: .sdaRel :: s.tr } := by
    refine ⟨_, rfl, ?_, rfl⟩
    constructor <;> first | rfl | (simp [waits]; try omega)
  have hs := smp_spec (s := t) (.ack b) (by rw [et])
  have hc : sampleHangs t = sampleHangs s := by rw [et]; rfl
  have run : ackCell b s = (do
      let l ← smp (.ack b)
      sclLo
      putAckf (ackOfSample l)
      return ackOfSample l : Proc Bool) t := by
    rw [et]
    rfl
  rw [run]
  refine ends_bind (ends_mono hs ?_ ?_)
  · rintro level u ⟨ru, ha, h1, h2, h3, h4, h5, h6, h7⟩
    refine .ok ⟨?_, ?_, rfl, ?_, ?_, ?_, rfl, ?_, ?_⟩
    · have r2 : Ran [.sclLo] u
          { u with sclo := false, upc := u.upc + 1, tr := .sclLo :: u.tr, ackf := ackOfSample level } := by
        constructor <;> first | rfl | simp [waits]
      simpa [ackCellOps, ackOfSample] using (rt.trans ru).trans r2
    · simpa [et, ackOfSample, record] using ha
    · simpa [record] using h2
    · simpa [et, record] using h3
    · simpa [et, record] using h4
    · simpa [et, record, countSample] using h6
    · rw [← hc]; exact h7
  · rintro u ⟨rfl, hh⟩
    exact ⟨⟨⟨_, rt, by simp⟩, by rw [et], by rw [et], hh, by rw [et]; exact id⟩, by rw [et], by rw [← hc]; exact hh⟩

/-- `WBYTE(b)` (R129): the byte goes out most significant bit first, the result is the slave's
acknowledgement, and it hangs only in its one sample. -/
theorem wbyte_spec (b : Byte) (s : State) :
    Ends (wbyte b s)
      (fun k t => Ran (wbyteOps b (!k)) s t ∧ Answers s.slave (.ack b) (!k) t.slave ∧ t.sclo = false ∧
        t.sdam = .rel ∧ t.sh = b ∧ t.biti = 0 ∧ t.ackf = k ∧ t.hangAfter = countSample s ∧
        sampleHangs s = false)
      (fun t => HungFrom 46 s t ∧ t.slave = s.slave ∧ sampleHangs s = true) := by
  obtain ⟨t, ht, rt, hv, hsh, -, hg, hi⟩ := writeCells_spec bitOrder { s with sh := b }
  have rt' : Ran (bitOrder.flatMap (writeCellOps b)) s t := rt.temporaries
  have hc : sampleHangs t = sampleHangs s := by simp [sampleHangs, rt'.par, hg]
  have run : wbyte b s = ackCell b t := by
    exact (bind_ok (x := putSh b) rfl).trans (bind_ok ht)
  rw [run]
  refine ends_mono (ackCell_spec b t) ?_ ?_
  · rintro k u ⟨ru, ha, h1, h2, h3, h4, h5, h6, h7⟩
    refine ⟨rt'.trans ru, hv ▸ ha, h1, h2, h3.trans hsh, ?_, h5, ?_, hc ▸ h7⟩
    · rw [h4, hi]; rfl
    · simp [h6, countSample, rt'.par, hg]
  · rintro u ⟨hu, hu', hh⟩
    exact ⟨hu.after rt' (by rw [hv]; exact id) (by simp [bitOrder, writeCellOps]), hu'.trans hv, hc ▸ hh⟩

/-- The acknowledgement cell's sample is asked with the micro-ops before it (R33, R129). -/
theorem ackCell_asks {b : Byte} {k : Bool} (h : ackCell b s = .ok k t) :
    ∃ before, t.tr = .sclLo :: .smp (!k) :: before ∧ s.slave.answer before (.ack b) = (!k, t.slave) := by
  refine ⟨.wait :: .sclHi :: .wait :: .sdaRel :: s.tr, ?_⟩
  let u : State := { s with
    sdam := .rel, sclo := true, upc := s.upc + 4, t := s.t + s.hp.toNat + s.hp.toNat,
    tr := .wait :: .sclHi :: .wait :: .sdaRel :: s.tr }
  have run : ackCell b s = (do
      let l ← smp (.ack b)
      sclLo
      putAckf (ackOfSample l)
      return ackOfSample l : Proc Bool) u := rfl
  rw [run] at h
  have hl : ∀ x, sampleLevel u x = x := sampleLevel_rel (s := u) rfl
  cases hh : sampleHangs u with
  | true =>
    have : smp (.ack b) u = .error .sample u := by simp [smp, hh]
    rw [bind_error this] at h
    cases h
  | false =>
    generalize ha : s.slave.answer (.wait :: .sclHi :: .wait :: .sdaRel :: s.tr) (.ack b) = ans
    obtain ⟨level, v⟩ := ans
    have : smp (.ack b) u = .ok level (record (.smp level) { u with slave := v, hangAfter := countSample u }) := by
      have ha : u.slave.answer u.tr (.ack b) = (level, v) := ha
      simp [smp, hh, hl, ha]
    rw [bind_ok this] at h
    cases h
    exact ⟨by simp [record, ackOfSample, u], by simp [ackOfSample, record, u]⟩

/-- The sample of a byte write is asked with the micro-ops before it (R33, R129). -/
theorem wbyte_asks {b : Byte} {k : Bool} (h : wbyte b s = .ok k t) :
    ∃ before, t.tr = .sclLo :: .smp (!k) :: before ∧ s.slave.answer before (.ack b) = (!k, t.slave) := by
  obtain ⟨u, hu, -, hv, -⟩ := writeCells_spec bitOrder { s with sh := b }
  have run : wbyte b s = ackCell b u := (bind_ok (x := putSh b) rfl).trans (bind_ok hu)
  rw [run] at h
  obtain ⟨before, h1, h2⟩ := ackCell_asks h
  exact ⟨before, h1, hv ▸ h2⟩

/-! ### Byte read -/

/-- Writing one bit of a byte (R119 (e)). -/
theorem getLsbD_withBit (x : Byte) (i : Nat) (v : Bool) (hi : i < 8) (j : Nat) :
    (withBit x i v).getLsbD j = if j = i then v else x.getLsbD j := by
  by_cases hj : j < 8
  · cases v <;> by_cases h : j = i <;> simp [withBit, h, hi, hj] <;> intros <;> omega
  · have : ¬ j = i := by omega
    rw [if_neg this, BitVec.getLsbD_of_ge _ _ (by omega), BitVec.getLsbD_of_ge _ _ (by omega)]

/-- One data cell of a byte read (R130). -/
theorem readCell_spec (i : Nat) (h : s.sdam = .rel) :
    Ends (readCell i s)
      (fun _ t => ∃ v, Ran [.wait, .sclHi, .wait, .smp v, .sclLo] s t ∧
        Answers s.slave (.data i) v t.slave ∧ t.sh = withBit s.sh i v ∧ t.sclo = false ∧ t.sdam = .rel ∧
        t.biti = BitVec.ofNat 4 i ∧ t.ackf = s.ackf)
      (HungFrom 5 s) := by
  obtain ⟨t, ht, rt, hv, hr, hc, hsh, hk, hi⟩ : ∃ t, (do putBiti i; wait; sclHi; wait : Proc Unit) s = .ok () t ∧
      Ran [.wait, .sclHi, .wait] s t ∧ t.slave = s.slave ∧ t.sdam = .rel ∧ t.sclo = true ∧ t.sh = s.sh ∧
      t.ackf = s.ackf ∧ t.biti = BitVec.ofNat 4 i := by
    refine ⟨_, rfl, ?_, rfl, h, rfl, rfl, rfl, rfl⟩
    constructor <;> first | rfl | (simp [waits]; try omega)
  have run : readCell i s = (do
      let v ← smp (.data i)
      let sh ← getSh
      putSh (withBit sh i v)
      sclLo : Proc Unit) t := by
    cases ht; rfl
  rw [run]
  refine ends_bind (ends_mono (smp_spec (.data i) hr) ?_ ?_)
  · rintro v u ⟨ru, ha, h1, h2, h3, h4, h5, -, -⟩
    refine .ok ⟨v, ?_, hv ▸ ha, ?_, rfl, h2, h4.trans hi, h5.trans hk⟩
    · have r2 : Ran [.sclLo] u
          { u with sh := withBit u.sh i v, sclo := false, upc := u.upc + 1, tr := .sclLo :: u.tr } := by
        constructor <;> first | rfl | simp [waits]
      exact (rt.trans ru).trans r2
    · exact congrArg (withBit · i v) (h3.trans hsh)
  · rintro u ⟨rfl, hh⟩
    exact ⟨⟨_, rt, by simp⟩, hc, hr, hh, by rw [hv]; exact id⟩

/-- The slave answers the data samples of the bits `is`, in that order, with the bits of `d`. -/
def AnswersBits (d : Byte) : List Nat → Slave → Slave → Prop
  | [], v, v' => v' = v
  | i :: is, v, v' => ∃ u, Answers v (.data i) (d.getLsbD i) u ∧ AnswersBits d is u v'

/-- The data cells of a byte read: what the slave answered stands in `SH`, and no other bit of it has
changed (R130, R119 (e)). -/
theorem readCells_spec (is : List Nat) (hn : is.Nodup) (hlt : ∀ i ∈ is, i < 8) (h : s.sdam = .rel) :
    Ends (readCells is s)
      (fun _ t => Ran (is.flatMap (readCellOps t.sh)) s t ∧ AnswersBits t.sh is s.slave t.slave ∧
        (∀ j, j ∉ is → t.sh.getLsbD j = s.sh.getLsbD j) ∧ t.sdam = .rel ∧ t.ackf = s.ackf ∧
        t.biti = (is.getLast?.map (BitVec.ofNat 4)).getD s.biti)
      (HungFrom (5 * is.length) s) := by
  induction is generalizing s with
  | nil => exact .ok ⟨Ran.refl s, rfl, fun _ _ => rfl, h, rfl, rfl⟩
  | cons i is ih =>
    obtain ⟨hni, hn⟩ := List.nodup_cons.1 hn
    refine ends_bind (ends_mono (readCell_spec i h) ?_ fun _ hu => hu.weaken (by simp +arith))
    rintro _ t ⟨v, rt, ha, hsh, -, hr, hi, hk⟩
    refine ends_mono (ih hn (fun j hj => hlt j (by simp [hj])) hr) ?_ ?_
    · rintro _ u ⟨ru, hb, hkeep, hr', hk', hi'⟩
      have hv : u.sh.getLsbD i = v := by
        rw [hkeep i hni, hsh, getLsbD_withBit _ _ _ (hlt i (by simp))]; simp
      refine ⟨?_, ⟨t.slave, hv ▸ ha, hb⟩, ?_, hr', hk'.trans hk, ?_⟩
      · have : readCellOps u.sh i = [.wait, .sclHi, .wait, .smp v, .sclLo] := by simp [readCellOps, hv]
        rw [List.flatMap_cons, this]
        exact rt.trans ru
      · intro j hj
        have hji : ¬ j = i := fun e => hj (by simp [e])
        rw [hkeep j (fun e => hj (by simp [e])), hsh, getLsbD_withBit _ _ _ (hlt i (by simp)), if_neg hji]
      · rw [hi', hi]; cases is <;> simp [List.getLast?_cons]
    · exact fun u hu => hu.after rt (answers_wf ha) (by simp; omega)

/-- The micro-ops of the master's acknowledgement cell (R130). -/
def masterAckOps (sendAck : Bool) : List MicroOp :=
  [if sendAck then .sdaLo else .sdaRel, .wait, .sclHi, .wait, .sclLo, .sdaRel]

/-- The state the master's acknowledgement cell leaves (R130). -/
theorem masterAckCell_eq (sendAck : Bool) (s : State) :
    masterAckCell sendAck s = .ok ()
      { s with
        sclo := false, sdam := .rel, upc := s.upc + 6, t := s.t + s.hp.toNat + s.hp.toNat,
        tr := (masterAckOps sendAck).reverse ++ s.tr } := by
  cases sendAck <;> rfl

/-- The master's acknowledgement cell (R130). -/
theorem masterAckCell_spec (sendAck : Bool) (s : State) :
    ∃ t, masterAckCell sendAck s = .ok () t ∧ Ran (masterAckOps sendAck) s t ∧ t.slave = s.slave ∧
      t.sclo = false ∧ t.sdam = .rel ∧ t.sh = s.sh ∧ t.biti = s.biti ∧ t.ackf = s.ackf ∧
      t.hangAfter = s.hangAfter := by
  refine ⟨_, masterAckCell_eq sendAck s, ⟨rfl, rfl, ?_, rfl, rfl, rfl, rfl, rfl, rfl, rfl, rfl, rfl, rfl⟩,
    rfl, rfl, rfl, rfl, rfl, rfl, rfl⟩
  have hw : waits (masterAckOps sendAck) = 2 := by cases sendAck <;> rfl
  show s.t + s.hp.toNat + s.hp.toNat = s.t + waits (masterAckOps sendAck) * s.hp.toNat
  rw [hw]
  omega

/-- `RBYTE(sendAck)` (R130): the byte is what the slave answered, most significant bit first, and the
master's acknowledgement is as asked. -/
theorem rbyte_spec (sendAck : Bool) (s : State) :
    Ends (rbyte sendAck s)
      (fun d t => Ran (rbyteOps sendAck d) s t ∧ AnswersBits d bitOrder s.slave t.slave ∧ t.sclo = false ∧
        t.sdam = .rel ∧ t.sh = d ∧ t.biti = 0 ∧ t.ackf = s.ackf)
      (HungFrom 47 s) := by
  obtain ⟨t, ht, rt, hv, hr, hk⟩ : ∃ t, (do sdaRel; putSh 0x00 : Proc Unit) s = .ok () t ∧
      Ran [.sdaRel] s t ∧ t.slave = s.slave ∧ t.sdam = .rel ∧ t.ackf = s.ackf := by
    refine ⟨_, rfl, ?_, rfl, rfl, rfl⟩
    constructor <;> first | rfl | simp [waits]
  have run : rbyte sendAck s = (do
      readCells bitOrder
      masterAckCell sendAck
      getSh : Proc Byte) t := by
    cases ht; rfl
  rw [run]
  refine ends_bind (ends_mono (readCells_spec bitOrder (by decide) (by decide) hr) ?_ ?_)
  on_goal 2 => exact fun _ hu => hu.after rt (by rw [hv]; exact id) (by simp [bitOrder])
  rintro _ u ⟨ru, hb, -, -, hk', hi'⟩
  obtain ⟨w, hw, rw', hv', h1, h2, h3, h4, h5, -⟩ := masterAckCell_spec sendAck u
  have hd : (do masterAckCell sendAck; getSh : Proc Byte) u = .ok w.sh w := bind_ok hw
  refine ends_of_ok hd ⟨?_, ?_, h1, h2, rfl, ?_, h5.trans (hk'.trans hk)⟩
  · have := (rt.trans ru).trans rw'
    rw [← h3] at this
    exact this
  · rw [h3, hv', ← hv]; exact hb
  · rw [h4, hi']; rfl

/-! ### What the slave's answers to a byte read are -/

theorem answersBits_wf {d : Byte} {is : List Nat} {v v' : Slave} (h : AnswersBits d is v v')
    (hv : slaveWf v) : slaveWf v' := by
  induction is generalizing v with
  | nil => rw [show v' = v from h]; exact hv
  | cons i is ih => obtain ⟨u, ha, hb⟩ := h; exact ih hb (answers_wf ha hv)

/-- The bits listed first are the byte's bits, most significant first (R130). -/
theorem answersBits_script {d : Byte} {is : List Nat} {bits rest : List Bool} {v' : Slave}
    (hl : bits.length = is.length) (h : AnswersBits d is (.oracle (bits ++ rest)) v') :
    is.map d.getLsbD = bits ∧ v' = .oracle rest := by
  induction is generalizing bits with
  | nil => cases bits <;> simp_all [AnswersBits]
  | cons i is ih =>
    cases bits with
    | nil => simp at hl
    | cons x bits =>
      obtain ⟨u, ha, hb⟩ := h
      obtain ⟨hx, rfl⟩ := answers_script ha
      obtain ⟨hm, hv⟩ := ih (by simpa using hl) hb
      exact ⟨by simp [hx, hm], hv⟩

/-- The reference slave drives the byte its pointer names, or nothing (R65). -/
def RefSlave.driven (r : RefSlave) : Byte := if r.present && r.sel && r.dir then r.rf.read r.ptr else 0xFF

theorem onData_driven (r : RefSlave) {i : Nat} (hi : i < 8) : r.onData i = r.driven.getLsbD i := by
  unfold RefSlave.onData RefSlave.driven
  split
  · rfl
  · have : ∀ i, i < 8 → (0xFF : Byte).getLsbD i = true := by decide
    exact (this i hi).symm

theorem answersBits_reference {d : Byte} {r : RefSlave} {v' : Slave}
    (h : AnswersBits d bitOrder (.reference r) v') : d = r.driven ∧ v' = .reference r := by
  have key : ∀ is : List Nat, (∀ i ∈ is, i < 8) → AnswersBits d is (.reference r) v' →
      (∀ i ∈ is, d.getLsbD i = r.driven.getLsbD i) ∧ v' = .reference r := by
    intro is
    induction is with
    | nil => intro _ h; exact ⟨by simp, h⟩
    | cons i is ih =>
      rintro hlt ⟨u, ha, hb⟩
      obtain ⟨hx, rfl⟩ := answers_data_reference ha
      obtain ⟨hm, hv⟩ := ih (fun j hj => hlt j (by simp [hj])) hb
      refine ⟨?_, hv⟩
      intro j hj
      rcases List.mem_cons.1 hj with rfl | hj
      · rw [hx, onData_driven r (hlt _ (by simp))]
      · exact hm j hj
  obtain ⟨hbits, hv⟩ := key bitOrder (by decide) h
  refine ⟨BitVec.eq_of_getLsbD_eq ?_, hv⟩
  intro i hi
  exact hbits i (by simp only [bitOrder, List.mem_cons, List.not_mem_nil, or_false]; omega)

end Sys2Proof.Machine
end

