-- ==== Sys2Proof/Laws/Transfers.lean ====
section
/-! SUPPORT. What each frame can do, said once (R87, R113 to R116), and what a command built on one
answers. -/

namespace Sys2Proof.Machine

variable {α : Type} {s t : State}

/-! ### What the slave is asked along a frame -/

/-- The slave's part of a probe frame. -/
def ProbeTalk (addr : BusAddr) (k : Bool) (v v' : Slave) : Prop :=
  ∃ u, Answers v.onStart (.ack (addressByte addr false)) (!k) u ∧ v' = u.onStop

/-- The slave's part of a write frame, by how it ended (R116). -/
def WriteTalk (addr : BusAddr) (reg val : Byte) (x : Except Cause Unit) (v v' : Slave) : Prop :=
  (x = .error .nackAddrW ∧
    ∃ u, Answers v.onStart (.ack (addressByte addr false)) true u ∧ v' = u.onStop) ∨
  ∃ u, Answers v.onStart (.ack (addressByte addr false)) false u ∧
    ((x = .error .nackReg ∧ ∃ w, Answers u (.ack reg) true w ∧ v' = w.onStop) ∨
      ∃ w, Answers u (.ack reg) false w ∧
        ((x = .error .nackData ∧ ∃ z, Answers w (.ack val) true z ∧ v' = z.onStop) ∨
          (x = .ok () ∧ ∃ z, Answers w (.ack val) false z ∧ v' = z.onStop)))

/-- The slave's part of a read frame, by how it ended (R116). -/
def ReadTalk (addr : BusAddr) (reg : Byte) (x : Except Cause Byte) (v v' : Slave) : Prop :=
  (x = .error .nackAddrW ∧
    ∃ u, Answers v.onStart (.ack (addressByte addr false)) true u ∧ v' = u.onStop) ∨
  ∃ u, Answers v.onStart (.ack (addressByte addr false)) false u ∧
    ((x = .error .nackReg ∧ ∃ w, Answers u (.ack reg) true w ∧ v' = w.onStop) ∨
      ∃ w, Answers u (.ack reg) false w ∧
        ((x = .error .nackAddrR ∧
            ∃ z, Answers w.onStart (.ack (addressByte addr true)) true z ∧ v' = z.onStop) ∨
          ∃ d z y, x = .ok d ∧ Answers w.onStart (.ack (addressByte addr true)) false z ∧
            AnswersBits d bitOrder z y ∧ v' = y.onStop))

/-! ### Lengths of the traces (R132) -/

@[simp] theorem startOps_length : startOps.length = 5 := rfl
@[simp] theorem stopOps_length : stopOps.length = 5 := rfl
@[simp] theorem wbyteOps_length (b : Byte) (l : Bool) : (wbyteOps b l).length = 46 := by
  simp [wbyteOps, bitOrder, writeCellOps]

@[simp] theorem rbyteOps_length (k : Bool) (d : Byte) : (rbyteOps k d).length = 47 := by
  simp [rbyteOps, bitOrder, readCellOps]

/-! ### Frames -/

/-- What ends a frame early (R116). -/
theorem abort_spec (why : Cause) (s : State) :
    ∃ t, (abort why : Proc (Except Cause α)) s = .ok (.error why) t ∧ Ran stopOps s t ∧
      t.slave = s.slave.onStop ∧ t.sclo = true ∧ t.sdam = .rel ∧ t.ackf = s.ackf := by
  obtain ⟨t, ht, rt, hv, hc, hr, -, -, hk, -⟩ := stop_spec s
  exact ⟨t, bind_ok ht, rt, hv, hc, hr, hk⟩

/-- `BE.PROBE`'s frame (R113). -/
theorem probe_spec (addr : BusAddr) (s : State) :
    Ends (probe addr s)
      (fun k t => Ran (probeOps addr k) s t ∧ ProbeTalk addr k s.slave t.slave ∧ t.sclo = true ∧
        t.sdam = .rel ∧ t.ackf = k)
      (HungFrom 56 s) := by
  obtain ⟨a, ha, ra, va, -⟩ := start_spec s
  rw [probe, bind_ok ha]
  refine ends_bind (ends_mono (wbyte_spec _ a) ?_ ?_)
  · rintro k b ⟨rb, hb, -, -, -, -, kb, -⟩
    obtain ⟨c, hc, rc, vc, h1, h2, -, -, h3, -⟩ := stop_spec b
    exact ends_of_ok (bind_ok hc) ⟨(ra.trans rb).trans rc, ⟨b.slave, va ▸ hb, vc⟩, h1, h2, h3.trans kb⟩
  · rintro b ⟨hb, -⟩
    exact hb.after ra (by rw [va]; exact onStart_wf) (by simp)

/-- `BE.WR8`'s frame (R114, R116). -/
theorem writeRegister_spec (addr : BusAddr) (reg val : Byte) (s : State) :
    Ends (writeRegister addr reg val s)
      (fun x t => writeEnd x = true ∧ Ran (writeOps addr reg val x) s t ∧
        WriteTalk addr reg val x s.slave t.slave ∧ t.sclo = true ∧ t.sdam = .rel ∧
        t.ackf = (respOfWrite x).ok)
      (HungFrom 148 s) := by
  obtain ⟨a, ha, ra, va, -⟩ := start_spec s
  have wa : slaveWf s.slave → slaveWf a.slave := by rw [va]; exact onStart_wf
  unfold writeRegister
  rw [bind_ok ha]
  refine ends_bind (ends_mono (wbyte_spec _ a) ?_ ?_)
  on_goal 2 => exact fun b hb => hb.1.after ra wa (by simp)
  rintro k b ⟨rb, hb, -, -, -, -, kb, -⟩
  have wb := answers_wf hb ∘ wa
  cases k with
  | false =>
    obtain ⟨c, hc, rc, vc, h1, h2, h3⟩ := abort_spec (α := Unit) .nackAddrW b
    simp only [Bool.false_eq_true, if_false]
    rw [hc]
    exact .ok ⟨rfl, (ra.trans rb).trans rc, .inl ⟨rfl, b.slave, va ▸ hb, vc⟩, h1, h2, h3.trans kb⟩
  | true =>
    simp only [if_true]
    refine ends_bind (ends_mono (wbyte_spec reg b) ?_ ?_)
    on_goal 2 => exact fun c hc => hc.1.after (ra.trans rb) wb (by simp)
    rintro k c ⟨rc, hc, -, -, -, -, kc, -⟩
    have wc := answers_wf hc ∘ wb
    cases k with
    | false =>
      obtain ⟨d, hd, rd, vd, h1, h2, h3⟩ := abort_spec (α := Unit) .nackReg c
      simp only [Bool.false_eq_true, if_false]
      rw [hd]
      exact .ok ⟨rfl, ((ra.trans rb).trans rc).trans rd,
        .inr ⟨b.slave, va ▸ hb, .inl ⟨rfl, c.slave, hc, vd⟩⟩, h1, h2, h3.trans kc⟩
    | true =>
      simp only [if_true]
      refine ends_bind (ends_mono (wbyte_spec val c) ?_ ?_)
      on_goal 2 => exact fun d hd => hd.1.after ((ra.trans rb).trans rc) wc (by simp)
      rintro k d ⟨rd, hd, -, -, -, -, kd, -⟩
      cases k with
      | false =>
        obtain ⟨e, he, re, ve, h1, h2, h3⟩ := abort_spec (α := Unit) .nackData d
        simp only [Bool.false_eq_true, if_false]
        rw [he]
        exact .ok ⟨rfl, (((ra.trans rb).trans rc).trans rd).trans re,
          .inr ⟨b.slave, va ▸ hb, .inr ⟨c.slave, hc, .inl ⟨rfl, d.slave, hd, ve⟩⟩⟩, h1, h2, h3.trans kd⟩
      | true =>
        obtain ⟨e, he, re, ve, h1, h2, -, -, h3, -⟩ := stop_spec d
        simp only [if_true]
        rw [bind_ok he]
        exact .ok ⟨rfl, (((ra.trans rb).trans rc).trans rd).trans re,
          .inr ⟨b.slave, va ▸ hb, .inr ⟨c.slave, hc, .inr ⟨rfl, d.slave, hd, ve⟩⟩⟩, h1, h2, h3.trans kd⟩

/-- `BE.RD8`'s frame with a destination (R115, R116, R133). -/
theorem readRegister_spec (addr : BusAddr) (reg : Byte) (s : State) :
    Ends (readRegister addr reg s)
      (fun x t => readEnd x = true ∧ Ran (readOps addr reg x) s t ∧
        ReadTalk addr reg x s.slave t.slave ∧ t.sclo = true ∧ t.sdam = .rel ∧
        t.ackf = (respOfRead x).ok)
      (HungFrom 200 s) := by
  obtain ⟨a, ha, ra, va, -⟩ := start_spec s
  have wa : slaveWf s.slave → slaveWf a.slave := by rw [va]; exact onStart_wf
  unfold readRegister
  rw [bind_ok ha]
  refine ends_bind (ends_mono (wbyte_spec _ a) ?_ ?_)
  on_goal 2 => exact fun b hb => hb.1.after ra wa (by simp)
  rintro k b ⟨rb, hb, -, -, -, -, kb, -⟩
  have wb := answers_wf hb ∘ wa
  cases k with
  | false =>
    obtain ⟨c, hc, rc, vc, h1, h2, h3⟩ := abort_spec (α := Byte) .nackAddrW b
    simp only [Bool.false_eq_true, if_false]
    rw [hc]
    exact .ok ⟨rfl, (ra.trans rb).trans rc, .inl ⟨rfl, b.slave, va ▸ hb, vc⟩, h1, h2, h3.trans kb⟩
  | true =>
    simp only [if_true]
    refine ends_bind (ends_mono (wbyte_spec reg b) ?_ ?_)
    on_goal 2 => exact fun c hc => hc.1.after (ra.trans rb) wb (by simp)
    rintro k c ⟨rc, hc, -, -, -, -, kc, -⟩
    have wc := answers_wf hc ∘ wb
    cases k with
    | false =>
      obtain ⟨d, hd, rd, vd, h1, h2, h3⟩ := abort_spec (α := Byte) .nackReg c
      simp only [Bool.false_eq_true, if_false]
      rw [hd]
      exact .ok ⟨rfl, ((ra.trans rb).trans rc).trans rd,
        .inr ⟨b.slave, va ▸ hb, .inl ⟨rfl, c.slave, hc, vd⟩⟩, h1, h2, h3.trans kc⟩
    | true =>
      simp only [if_true]
      obtain ⟨d, hd, rd, vd, -⟩ := start_spec c
      rw [bind_ok hd]
      have wd : slaveWf s.slave → slaveWf d.slave := fun h => by rw [vd]; exact onStart_wf (wc h)
      have r4 := ((ra.trans rb).trans rc).trans rd
      refine ends_bind (ends_mono (wbyte_spec _ d) ?_ ?_)
      on_goal 2 => exact fun e he => he.1.after r4 wd (by simp)
      rintro k e ⟨re, he, -, -, -, -, ke, -⟩
      have we := answers_wf he ∘ wd
      cases k with
      | false =>
        obtain ⟨f, hf, rf, vf, h1, h2, h3⟩ := abort_spec (α := Byte) .nackAddrR e
        simp only [Bool.false_eq_true, if_false]
        rw [hf]
        exact .ok ⟨rfl, (r4.trans re).trans rf,
          .inr ⟨b.slave, va ▸ hb, .inr ⟨c.slave, hc, .inl ⟨rfl, e.slave, vd ▸ he, vf⟩⟩⟩, h1, h2, h3.trans ke⟩
      | true =>
        simp only [if_true]
        refine ends_bind (ends_mono (rbyte_spec false e) ?_ ?_)
        on_goal 2 => exact fun f hf => hf.after (r4.trans re) we (by simp)
        rintro x f ⟨rf, hf, -, -, -, -, kf⟩
        obtain ⟨g, hg, rg, vg, h1, h2, -, -, h3, -⟩ := stop_spec f
        rw [bind_ok hg]
        exact .ok ⟨rfl, ((r4.trans re).trans rf).trans rg,
          .inr ⟨b.slave, va ▸ hb, .inr ⟨c.slave, hc, .inr ⟨x, e.slave, f.slave, rfl, vd ▸ he, hf, vg⟩⟩⟩,
          h1, h2, h3.trans (kf.trans ke)⟩

end Sys2Proof.Machine
end

