-- ==== Sys2Proof/Laws/Commands.lean ====
section
/-! SUPPORT. What a command built on a sequence answers, and what the Device Controller's compositions
of frames can do, said once (R110, R140, R141, R164, R169). -/

namespace Sys2Proof.Machine

variable {α : Type} {s t u : State}

/-! ### From a sequence to a command -/

theorem linesIdle_iff : linesIdle s = true ↔ s.sclm = .out ∧ s.sclo = true ∧ s.sdam = .rel := by
  simp [linesIdle, and_assoc]

theorem Ready.idle (h : Ready s) : s.busy = false := h.1

theorem ReadyToTransfer.idle (h : ReadyToTransfer s) : s.busy = false := h.1.1

/-- A block whose samples all complete does not hang (R164). -/
theorem not_hungFrom {n : Nat} {w : CommandWord} (h : s.par.stallModel = .none) :
    ¬ HungFrom n (accept w s) t := by
  intro k
  obtain ⟨ops, r, -⟩ := k.ran
  have := stallModel_of_hangs k.hangs
  rw [r.par, accept_par, h] at this
  cases this

theorem runCommand_busy {w : CommandWord} {body : Proc Resp} (h : s.busy = true) :
    runCommand w body s = .next s := by
  simp [runCommand, h]

theorem runTransfer_busy {w : CommandWord} {body : Proc Resp} (h : s.busy = true) :
    runTransfer w body s = .next s := by
  simp [runTransfer, h]

theorem runTransfer_ready {w : CommandWord} {body : Proc Resp} (hl : linesIdle s = true) :
    runTransfer w body s = runCommand w body s := by
  unfold runTransfer
  split
  · rename_i h; rw [runCommand_busy h]
  · rfl

theorem runTransfer_notBegun {w : CommandWord} {body : Proc Resp} (h : s.busy = false)
    (hl : linesIdle s = false) : runTransfer w body s = .refused .notBegun := by
  simp [runTransfer, h, hl]

/-- A command's outcome is its sequence's end: the completed state, or the hung one (R31, R164). -/
theorem runCommand_spec {w : CommandWord} {body : Proc Resp} {P : Resp → State → Prop} {H : State → Prop}
    (hb : s.busy = false) (h : Ends (body (accept w s)) P H) :
    (∃ r t, runCommand w body s = .next (complete r t) ∧ P r t) ∨
      ∃ t, runCommand w body s = .next t ∧ H t := by
  unfold runCommand
  generalize body (accept w s) = r at h
  cases h with
  | ok h => exact .inl ⟨_, _, by rw [hb]; rfl, h⟩
  | hung h => exact .inr ⟨_, by rw [hb]; rfl, h⟩

/-- What micro-ops from acceptance to completion leave. -/
theorem completed_of_ran {w : CommandWord} {ops : List MicroOp} {r : Resp} (h : Ran ops (accept w s) t)
    (hc : t.sclo = s.sclo) (hr : t.sdam = s.sdam) : Completed w ops r s (complete r t) where
  tr := h.tr
  time := h.time
  resp := rfl
  busy := rfl
  upc := rfl
  sclm := h.sclm
  sclo := hc
  sdam := hr
  opc := h.opc
  a := h.a
  b := h.b
  c := h.c
  par := h.par
  hp := h.hp
  offered := h.offered

/-- A command over a sequence that goes from the idle line state to the idle line state: it completes
with the response the sequence's value gives, or it hangs (R110, R140, R164). -/
theorem runTransfer_spec {w : CommandWord} {x : Proc α} {f : α → Resp} {n : Nat}
    {ops : α → List MicroOp} {E : α → Prop} {T : α → Slave → Slave → Prop} {K : α → Bool}
    (hb : s.busy = false) (hl : linesIdle s = true)
    (hx : Ends (x (accept w s))
      (fun a t => E a ∧ Ran (ops a) (accept w s) t ∧ T a s.slave t.slave ∧ t.sclo = true ∧ t.sdam = .rel ∧
        t.ackf = K a)
      (HungFrom n (accept w s))) :
    (∃ a t, runTransfer w (do let a ← x; return f a) s = .next t ∧ E a ∧
        Completed w (ops a) (f a) s t ∧ T a s.slave t.slave ∧ t.ackf = K a) ∨
      ∃ t, runTransfer w (do let a ← x; return f a) s = .next t ∧ HungFrom n (accept w s) t := by
  obtain ⟨-, h1, h2⟩ := linesIdle_iff.1 hl
  rw [runTransfer_ready hl]
  have : Ends ((do let a ← x; return f a : Proc Resp) (accept w s))
      (fun r t => ∃ a, r = f a ∧ E a ∧ Ran (ops a) (accept w s) t ∧ T a s.slave t.slave ∧
        t.sclo = true ∧ t.sdam = .rel ∧ t.ackf = K a) (HungFrom n (accept w s)) :=
    ends_bind (ends_mono hx (fun a t h => .ok ⟨a, rfl, h⟩) fun _ h => h)
  rcases runCommand_spec hb this with ⟨r, t, hn, a, rfl, he, hr, ht, hc, hd, hk⟩ | h
  · exact .inl ⟨a, _, hn, he, completed_of_ran hr (hc.trans h1.symm) (hd.trans h2.symm), ht, hk⟩
  · exact .inr h

/-! ### Fire-and-forget writes -/

/-- A write whose result is discarded. -/
theorem wrDiscard_spec (p : Params) (r v : Byte) (s : State) :
    Ends (wrDiscard p r v s)
      (fun _ t => ∃ x, writeEnd x = true ∧ Ran (writeOps p.devAddr r v x) s t ∧
        WriteTalk p.devAddr r v x s.slave t.slave ∧ t.sclo = true ∧ t.sdam = .rel ∧
        t.ackf = (respOfWrite x).ok)
      (HungFrom 148 s) := by
  unfold wrDiscard wr
  exact ends_bind (ends_mono (writeRegister_spec p.devAddr r v s) (fun x t h => .ok ⟨x, h⟩) fun _ h => h)

/-- The slave's part of writes one after another. -/
def EachTalk (addr : BusAddr) : List ((Byte × Byte) × Except Cause Unit) → Slave → Slave → Prop
  | [], v, v' => v' = v
  | x :: xs, v, v' => ∃ u, WriteTalk addr x.1.1 x.1.2 x.2 v u ∧ EachTalk addr xs u v'

theorem answers_talk_wf {addr : BusAddr} {reg val : Byte} {x : Except Cause Unit} {v v' : Slave}
    (h : WriteTalk addr reg val x v v') (hv : slaveWf v) : slaveWf v' := by
  have h0 := onStart_wf hv
  rcases h with ⟨-, u, hu, rfl⟩ | ⟨u, hu, ⟨-, w, hw, rfl⟩ | ⟨w, hw, ⟨-, z, hz, rfl⟩ | ⟨-, z, hz, rfl⟩⟩⟩
  · exact onStop_wf (answers_wf hu h0)
  · exact onStop_wf (answers_wf hw (answers_wf hu h0))
  · exact onStop_wf (answers_wf hz (answers_wf hw (answers_wf hu h0)))
  · exact onStop_wf (answers_wf hz (answers_wf hw (answers_wf hu h0)))

theorem readTalk_wf {addr : BusAddr} {reg : Byte} {x : Except Cause Byte} {v v' : Slave}
    (h : ReadTalk addr reg x v v') (hv : slaveWf v) : slaveWf v' := by
  have h0 := onStart_wf hv
  rcases h with ⟨-, u, hu, rfl⟩ | ⟨u, hu, ⟨-, w, hw, rfl⟩ | ⟨w, hw, ⟨-, z, hz, rfl⟩ | ⟨d, z, y, -, hz, hy, rfl⟩⟩⟩
  · exact onStop_wf (answers_wf hu h0)
  · exact onStop_wf (answers_wf hw (answers_wf hu h0))
  · exact onStop_wf (answers_wf hz (onStart_wf (answers_wf hw (answers_wf hu h0))))
  · exact onStop_wf (answersBits_wf hy (answers_wf hz (onStart_wf (answers_wf hw (answers_wf hu h0)))))

theorem probeTalk_wf {addr : BusAddr} {k : Bool} {v v' : Slave} (h : ProbeTalk addr k v v')
    (hv : slaveWf v) : slaveWf v' := by
  obtain ⟨u, hu, rfl⟩ := h
  exact onStop_wf (answers_wf hu (onStart_wf hv))

/-- Writes one after another, from idle lines to idle lines. -/
theorem wrEach_spec (p : Params) (ws : List (Byte × Byte)) (hc : s.sclo = true) (hr : s.sdam = .rel) :
    Ends (wrEach p ws s)
      (fun _ t => ∃ xs, xs.length = ws.length ∧ (∀ x ∈ xs, writeEnd x = true) ∧
        Ran (eachOps p.devAddr (ws.zip xs)) s t ∧ EachTalk p.devAddr (ws.zip xs) s.slave t.slave ∧
        t.sclo = true ∧ t.sdam = .rel)
      (HungFrom (148 * ws.length) s) := by
  induction ws generalizing s with
  | nil => exact .ok ⟨[], rfl, by simp, Ran.refl s, rfl, hc, hr⟩
  | cons w ws ih =>
    obtain ⟨r, v⟩ := w
    refine ends_bind (ends_mono (wrDiscard_spec p r v s) ?_ fun _ h => h.weaken (by simp +arith))
    rintro _ t ⟨x, he, rt, ht, h1, h2, -⟩
    refine ends_mono (ih h1 h2) ?_ ?_
    · rintro _ u ⟨xs, hl, hes, ru, hu, h3, h4⟩
      refine ⟨x :: xs, by simp [hl], ?_, ?_, ⟨_, ht, hu⟩, h3, h4⟩
      · intro y hy
        rcases List.mem_cons.1 hy with rfl | hy
        · exact he
        · exact hes y hy
      · simpa [eachOps] using rt.trans ru
    · refine fun u hu => hu.after rt (answers_talk_wf ht) ?_
      have : (writeOps p.devAddr r v x).length ≤ 148 := by
        rcases x with (_ | _ | _ | _ | _ | _ | _ | _) | _ <;> simp [writeOps]
      simp only [List.length_cons]; omega

/-! ### Rewrites -/

/-- The slave's part of a rewrite. -/
def RewriteTalk (p : Params) (r m : Byte) (set : Bool) :
    Except Cause Byte → Except Cause Unit → Slave → Slave → Prop
  | .error why, _, v, v' => ReadTalk p.devAddr r (.error why) v v'
  | .ok d, x, v, v' =>
    ∃ u, ReadTalk p.devAddr r (.ok d) v u ∧ WriteTalk p.devAddr r (force d m set) x u v'

theorem rewriteTalk_wf {p : Params} {r m : Byte} {set : Bool} {f : Except Cause Byte}
    {x : Except Cause Unit} {v v' : Slave} (h : RewriteTalk p r m set f x v v') (hv : slaveWf v) :
    slaveWf v' := by
  cases f with
  | error why => exact readTalk_wf h hv
  | ok d => obtain ⟨u, hu, hw⟩ := h; exact answers_talk_wf hw (readTalk_wf hu hv)

theorem readOps_length_le (addr : BusAddr) (reg : Byte) (x : Except Cause Byte) :
    (readOps addr reg x).length ≤ 200 := by
  rcases x with (_ | _ | _ | _ | _ | _ | _ | _) | _ <;> simp [readOps]

theorem writeOps_length_le (addr : BusAddr) (reg val : Byte) (x : Except Cause Unit) :
    (writeOps addr reg val x).length ≤ 148 := by
  rcases x with (_ | _ | _ | _ | _ | _ | _ | _) | _ <;> simp [writeOps]

theorem rewriteOps_length_le (p : Params) (r m : Byte) (set : Bool) (f : Except Cause Byte)
    (x : Except Cause Unit) : (rewriteOps p r m set f x).length ≤ 348 := by
  cases f with
  | error why => have := readOps_length_le p.devAddr r (.error why); simp only [rewriteOps]; omega
  | ok d =>
    have h1 := readOps_length_le p.devAddr r (.ok d)
    have h2 := writeOps_length_le p.devAddr r (force d m set) x
    simp only [rewriteOps, List.length_append]; omega

/-- Reading a register and writing it back with one bit forced (R141). -/
theorem rewrite_spec (p : Params) (r m : Byte) (set : Bool) (s : State) :
    Ends (rewrite p r m set s)
      (fun _ t => ∃ f x, readEnd f = true ∧ writeEnd x = true ∧ Ran (rewriteOps p r m set f x) s t ∧
        RewriteTalk p r m set f x s.slave t.slave ∧ t.sclo = true ∧ t.sdam = .rel)
      (HungFrom 348 s) := by
  unfold rewrite rd
  refine ends_bind (ends_mono (readRegister_spec p.devAddr r s) ?_ fun _ h => h.weaken (by decide))
  rintro f t ⟨he, rt, ht, h1, h2, -⟩
  cases f with
  | error why => exact .ok ⟨.error why, .ok (), he, rfl, rt, ht, h1, h2⟩
  | ok d =>
    refine ends_mono (wrDiscard_spec p r (force d m set) t) ?_ ?_
    · rintro _ u ⟨x, hx, ru, hu, h3, h4, -⟩
      exact ⟨.ok d, x, he, hx, rt.trans ru, ⟨_, ht, hu⟩, h3, h4⟩
    · exact fun u hu => hu.after rt (readTalk_wf ht) (by simp [readOps])

/-! ### `DC.BEGIN` -/

/-- The slave's part of a `DC.BEGIN` whose first write succeeded. -/
def BeginTalk (p : Params) (e : BeginEnds) (v v' : Slave) : Prop :=
  ∃ v1 v2 v3, WriteTalk p.devAddr regMode 0x00 (.ok ()) v v1 ∧
    EachTalk p.devAddr ((bestEffortWrites p).zip e.best) v1 v2 ∧
    RewriteTalk p regFeedback (fbMask p) (fbSet p) e.fb e.fbWrite v2 v3 ∧
    RewriteTalk p regControl3 (c3Mask p) (c3Set p) e.c3 e.c3Write v3 v'

theorem eachTalk_wf {addr : BusAddr} {xs : List ((Byte × Byte) × Except Cause Unit)} {v v' : Slave}
    (h : EachTalk addr xs v v') (hv : slaveWf v) : slaveWf v' := by
  induction xs generalizing v with
  | nil => rw [show v' = v from h]; exact hv
  | cons x xs ih => obtain ⟨u, hu, hs⟩ := h; exact ih hs (answers_talk_wf hu hv)

theorem beginTalk_wf {p : Params} {e : BeginEnds} {v v' : Slave} (h : BeginTalk p e v v')
    (hv : slaveWf v) : slaveWf v' := by
  obtain ⟨v1, v2, v3, h1, h2, h3, h4⟩ := h
  exact rewriteTalk_wf h4 (rewriteTalk_wf h3 (eachTalk_wf h2 (answers_talk_wf h1 hv)))

theorem eachOps_length_le (addr : BusAddr) (xs : List ((Byte × Byte) × Except Cause Unit)) :
    (eachOps addr xs).length ≤ 148 * xs.length := by
  induction xs with
  | nil => simp [eachOps]
  | cons x xs ih =>
    have := writeOps_length_le addr x.1.1 x.1.2 x.2
    simp only [eachOps, List.flatMap_cons, List.length_append, List.length_cons] at *
    omega

/-- The steps of `DC.BEGIN`: the first write fails and nothing follows, or everything else follows
whatever becomes of it (R141, R172). -/
theorem initialise_spec (p : Params) (s : State) :
    Ends (initialise p s)
      (fun r t => t.sclo = true ∧ t.sdam = .rel ∧
        ((r = respFail ∧ ∃ why, writeEnd (.error why) = true ∧
            Ran (writeOps p.devAddr regMode 0x00 (.error why)) s t ∧
            WriteTalk p.devAddr regMode 0x00 (.error why) s.slave t.slave ∧ t.ackf = false) ∨
          (r = respDone ∧ ∃ e : BeginEnds, e.Possible ∧ Ran (beginOps p e) s t ∧
            BeginTalk p e s.slave t.slave)))
      (HungFrom 2028 s) := by
  unfold initialise wr
  refine ends_bind (ends_mono (writeRegister_spec p.devAddr regMode 0x00 s) ?_ fun _ h => h.weaken (by decide))
  rintro x t ⟨he, rt, ht, h1, h2, hk⟩
  cases x with
  | error why => exact .ok ⟨h1, h2, .inl ⟨rfl, why, he, rt, ht, hk⟩⟩
  | ok _ =>
    have w1 := answers_talk_wf ht
    unfold configureChip
    have l0 : (writeOps p.devAddr regMode 0x00 (.ok ())).length = 148 := by simp [writeOps]
    refine ends_bind (ends_bind (ends_mono (wrEach_spec p (bestEffortWrites p) h1 h2) ?_ ?_))
    on_goal 2 => exact fun u hu => hu.after rt w1 (by rw [l0]; simp [bestEffortWrites])
    rintro _ u ⟨xs, hl, hes, ru, hu, h3, h4⟩
    have w2 := eachTalk_wf hu ∘ w1
    have l1 := eachOps_length_le p.devAddr ((bestEffortWrites p).zip xs)
    have l1' : ((bestEffortWrites p).zip xs).length = 8 := by
      rw [List.length_zip, hl]; simp [bestEffortWrites]
    refine ends_bind (ends_mono (rewrite_spec p regFeedback (fbMask p) (fbSet p) u) ?_ ?_)
    on_goal 2 => exact fun v hv => hv.after (rt.trans ru) w2 (by rw [List.length_append, l0]; omega)
    rintro _ v ⟨f, y, hf, hy, rv, hv, h5, h6⟩
    have w3 := rewriteTalk_wf hv ∘ w2
    have l2 := rewriteOps_length_le p regFeedback (fbMask p) (fbSet p) f y
    refine ends_mono (rewrite_spec p regControl3 (c3Mask p) (c3Set p) v) ?_ ?_
    on_goal 2 => exact fun w hw => hw.after ((rt.trans ru).trans rv) w3 (by
      rw [List.length_append, List.length_append, l0]; omega)
    rintro _ w ⟨g, z, hg, hz, rw', hw, h7, h8⟩
    refine .ok ⟨h7, h8, .inr ⟨rfl, ⟨xs, f, y, g, z⟩, ⟨?_, hes, hf, hy, hg, hz⟩,
      ((rt.trans ru).trans rv).trans rw', _, _, _, ht, hu, hv, hw⟩⟩
    rw [hl]; rfl

/-! ### What the reference slave makes of a frame (R62 to R65) -/

theorem addressByte_addr (addr : BusAddr) (read : Bool) :
    (addressByte addr read).extractLsb' 1 7 = addr := by
  unfold addressByte
  apply BitVec.eq_of_getLsbD_eq
  intro i hi
  simp only [BitVec.getLsbD_extractLsb', BitVec.getLsbD_append, hi, decide_true, Bool.true_and]
  have : ¬ 1 + i < 1 := by omega
  simp [this]

theorem addressByte_direction (addr : BusAddr) (read : Bool) :
    (addressByte addr read).getLsbD 0 = read := by
  rw [addressByte, BitVec.getLsbD_append]
  simp

/-- The address byte after a start condition (R63, R64). -/
theorem onAck_address (r : RefSlave) (addr : BusAddr) (read : Bool) :
    r.onStart.onAck (addressByte addr read) =
      if r.hears addr then (false, { r with cnt := 1, sel := true, dir := read })
      else (true, if r.present then { r with cnt := 1, sel := false } else { r with cnt := 0, sel := false }) := by
  unfold RefSlave.onStart RefSlave.onAck RefSlave.hears
  rw [addressByte_addr, addressByte_direction]
  cases hp : r.present <;> by_cases ha : addr = r.sa <;> simp [ha]

/-- The reference slave's part of a probe frame: its registers stay as they are (R113). -/
theorem probeTalk_reference {addr : BusAddr} {k : Bool} {r : RefSlave} {v' : Slave}
    (h : ProbeTalk addr k (.reference r) v') :
    k = r.hears addr ∧ ∃ r', v' = .reference r' ∧ r'.present = r.present ∧ r'.sa = r.sa ∧ r'.ro = r.ro ∧
      r'.rf = r.rf ∧ r'.ptr = r.ptr := by
  obtain ⟨u, hu, rfl⟩ := h
  obtain ⟨hk, rfl⟩ := answers_ack_reference hu
  rw [onAck_address] at hk
  refine ⟨?_, _, rfl, ?_⟩
  · cases h : r.hears addr <;> simp_all
  · rw [onAck_address]
    cases r.hears addr <;> cases r.present <;> exact ⟨rfl, rfl, rfl, rfl, rfl⟩

/-- The register-number byte of an addressed write (R64). -/
theorem onAck_register {r : RefSlave} (hp : r.present = true) (b : Byte) :
    RefSlave.onAck { r with cnt := 1, sel := true, dir := false } b =
      (false, { r with cnt := 2, sel := true, dir := false, ptr := b }) := by
  simp [RefSlave.onAck, hp]

/-- A data byte of an addressed write (R64). -/
theorem onAck_data {r : RefSlave} (hp : r.present = true) (reg b : Byte) :
    RefSlave.onAck { r with cnt := 2, sel := true, dir := false, ptr := reg } b =
      (false,
        { RefSlave.store { r with cnt := 2, sel := true, dir := false, ptr := reg } b with cnt := 3 }) := by
  simp [RefSlave.onAck, hp]

/-- A register file after a byte was written to a register, if it is writable (R64). -/
def RefSlave.put (ro : List Byte) (m : Memory) (reg val : Byte) : Memory :=
  if reg ∈ ro then m else m.write reg val

/-- The reference slave's part of a write frame: it acknowledges all of it or none (R64). -/
theorem writeTalk_reference {addr : BusAddr} {reg val : Byte} {x : Except Cause Unit} {r : RefSlave}
    {v' : Slave} (h : WriteTalk addr reg val x (.reference r) v') :
    x = (if r.hears addr then .ok () else .error .nackAddrW) ∧
      ∃ r', v' = .reference r' ∧ r'.present = r.present ∧ r'.sa = r.sa ∧ r'.ro = r.ro ∧
        r'.rf = (if r.hears addr then RefSlave.put r.ro r.rf reg val else r.rf) ∧
        r'.ptr = (if r.hears addr then reg else r.ptr) := by
  cases hh : r.hears addr with
  | false =>
    rcases h with ⟨rfl, u, hu, rfl⟩ | ⟨u, hu, -⟩
    · obtain ⟨-, rfl⟩ := answers_ack_reference hu
      rw [onAck_address, hh]
      cases r.present <;> exact ⟨rfl, _, rfl, rfl, rfl, rfl, rfl, rfl⟩
    · have := (answers_ack_reference hu).1
      rw [onAck_address, hh] at this
      cases this
  | true =>
    have hp : r.present = true := by simp [RefSlave.hears] at hh; exact hh.1
    rcases h with ⟨-, u, hu, -⟩ | ⟨u, hu, h⟩
    · have := (answers_ack_reference hu).1
      rw [onAck_address, hh] at this
      cases this
    · obtain ⟨-, rfl⟩ := answers_ack_reference hu
      rw [onAck_address, hh] at h
      simp only [if_true] at h
      rcases h with ⟨-, w, hw, -⟩ | ⟨w, hw, h⟩
      · have := (answers_ack_reference hw).1
        rw [onAck_register hp] at this
        cases this
      · obtain ⟨-, rfl⟩ := answers_ack_reference hw
        rw [onAck_register hp] at h
        rcases h with ⟨-, z, hz, -⟩ | ⟨rfl, z, hz, rfl⟩
        · have := (answers_ack_reference hz).1
          rw [onAck_data hp] at this
          cases this
        · obtain ⟨-, rfl⟩ := answers_ack_reference hz
          rw [onAck_data hp]
          refine ⟨rfl, _, rfl, ?_⟩
          by_cases hro : reg ∈ r.ro <;>
            simp [RefSlave.onStop, RefSlave.store, RefSlave.put, hro]

/-- The reference slave's part of a read frame: it acknowledges all of it and drives the register, or
acknowledges nothing; its registers stay as they are (R64, R65). -/
theorem readTalk_reference {addr : BusAddr} {reg : Byte} {x : Except Cause Byte} {r : RefSlave}
    {v' : Slave} (h : ReadTalk addr reg x (.reference r) v') :
    x = (if r.hears addr then .ok (r.rf.read reg) else .error .nackAddrW) ∧
      ∃ r', v' = .reference r' ∧ r'.present = r.present ∧ r'.sa = r.sa ∧ r'.ro = r.ro ∧ r'.rf = r.rf ∧
        r'.ptr = (if r.hears addr then reg else r.ptr) := by
  cases hh : r.hears addr with
  | false =>
    rcases h with ⟨rfl, u, hu, rfl⟩ | ⟨u, hu, -⟩
    · obtain ⟨-, rfl⟩ := answers_ack_reference hu
      rw [onAck_address, hh]
      cases r.present <;> exact ⟨rfl, _, rfl, rfl, rfl, rfl, rfl, rfl⟩
    · have := (answers_ack_reference hu).1
      rw [onAck_address, hh] at this
      cases this
  | true =>
    have hp : r.present = true := by simp [RefSlave.hears] at hh; exact hh.1
    rcases h with ⟨-, u, hu, -⟩ | ⟨u, hu, h⟩
    · have := (answers_ack_reference hu).1
      rw [onAck_address, hh] at this
      cases this
    · obtain ⟨-, rfl⟩ := answers_ack_reference hu
      rw [onAck_address, hh] at h
      simp only [if_true] at h
      rcases h with ⟨-, w, hw, -⟩ | ⟨w, hw, h⟩
      · have := (answers_ack_reference hw).1
        rw [onAck_register hp] at this
        cases this
      · obtain ⟨-, rfl⟩ := answers_ack_reference hw
        rw [onAck_register hp] at h
        have heard : RefSlave.hears { r with cnt := 2, sel := true, dir := false, ptr := reg } addr = true := hh
        rcases h with ⟨-, z, hz, -⟩ | ⟨d, z, y, rfl, hz, hy, rfl⟩
        · have := (answers_ack_reference hz).1
          rw [onAck_address] at this
          simp only [heard, if_true] at this
          cases this
        · obtain ⟨-, rfl⟩ := answers_ack_reference hz
          rw [onAck_address] at hy
          simp only [heard, if_true] at hy
          obtain ⟨hd, rfl⟩ := answersBits_reference hy
          refine ⟨?_, _, rfl, rfl, rfl, rfl, rfl, rfl⟩
          simp [hd, RefSlave.driven, hp]

end Sys2Proof.Machine
end

