-- ==== Sys2Proof/Laws/Exec.lean ====
section
/-! SUPPORT. What any command can do, said once (R110, R140, R164, R166, R169): later proofs cite this and
unfold no meaning. -/

namespace Sys2Proof.Machine

variable {s t : State}

/-- The micro-ops of complete frames, one after another (R87). -/
inductive Frames : List MicroOp → Prop where
  | none : Frames []
  | probe (addr : BusAddr) (k : Bool) {ops : List MicroOp} (h : Frames ops) : Frames (probeOps addr k ++ ops)
  | write (addr : BusAddr) (reg val : Byte) (x : Except Cause Unit) {ops : List MicroOp} (h : Frames ops) :
      Frames (writeOps addr reg val x ++ ops)
  | read (addr : BusAddr) (reg : Byte) (x : Except Cause Byte) {ops : List MicroOp} (h : Frames ops) :
      Frames (readOps addr reg x ++ ops)

theorem Frames.append {x y : List MicroOp} (h : Frames x) (k : Frames y) : Frames (x ++ y) := by
  induction h with
  | none => exact k
  | probe addr a _ ih => rw [List.append_assoc]; exact ih.probe addr a
  | write addr reg val e _ ih => rw [List.append_assoc]; exact ih.write addr reg val e
  | read addr reg e _ ih => rw [List.append_assoc]; exact ih.read addr reg e

theorem frames_probe (addr : BusAddr) (k : Bool) : Frames (probeOps addr k) := by
  simpa using Frames.none.probe addr k

theorem frames_write (addr : BusAddr) (reg val : Byte) (x : Except Cause Unit) :
    Frames (writeOps addr reg val x) := by
  simpa using Frames.none.write addr reg val x

theorem frames_read (addr : BusAddr) (reg : Byte) (x : Except Cause Byte) : Frames (readOps addr reg x) := by
  simpa using Frames.none.read addr reg x

theorem frames_each (addr : BusAddr) (xs : List ((Byte × Byte) × Except Cause Unit)) :
    Frames (eachOps addr xs) := by
  induction xs with
  | nil => exact .none
  | cons x xs ih => exact (frames_write ..).append ih

theorem frames_rewrite (p : Params) (r m : Byte) (set : Bool) (f : Except Cause Byte)
    (x : Except Cause Unit) : Frames (rewriteOps p r m set f x) := by
  cases f with
  | error why => exact frames_read ..
  | ok d => exact (frames_read ..).append (frames_write ..)

theorem frames_begin (p : Params) (e : BeginEnds) : Frames (beginOps p e) :=
  (((frames_write ..).append (frames_each ..)).append (frames_rewrite ..)).append (frames_rewrite ..)

/-! ### Waits and samples of the frames (R132) -/

theorem samples_append (x y : List MicroOp) : samples (x ++ y) = samples x + samples y := by
  simp [samples]

@[simp] theorem startOps_counts : waits startOps = 1 ∧ samples startOps = 0 := by decide

@[simp] theorem stopOps_counts : waits stopOps = 2 ∧ samples stopOps = 0 := by decide

theorem wbyteOps_counts (b : Byte) (l : Bool) : waits (wbyteOps b l) = 18 ∧ samples (wbyteOps b l) = 1 := by
  have cells : ∀ is : List Nat, waits (is.flatMap (writeCellOps b)) = 2 * is.length ∧
      samples (is.flatMap (writeCellOps b)) = 0 := by
    intro is
    induction is with
    | nil => simp [samples]
    | cons i is ih =>
      have : waits (writeCellOps b i) = 2 ∧ samples (writeCellOps b i) = 0 := by
        unfold writeCellOps bitOp; split <;> decide
      simp [samples_append, ih, this]; omega
  unfold wbyteOps
  rw [waits_append, samples_append, (cells _).1, (cells _).2]
  cases l <;> decide

theorem rbyteOps_counts (k : Bool) (d : Byte) : waits (rbyteOps k d) = 18 ∧ samples (rbyteOps k d) = 8 := by
  have cells : ∀ is : List Nat, waits (is.flatMap (readCellOps d)) = 2 * is.length ∧
      samples (is.flatMap (readCellOps d)) = is.length := by
    intro is
    induction is with
    | nil => simp [samples]
    | cons i is ih =>
      have : waits (readCellOps d i) = 2 ∧ samples (readCellOps d i) = 1 := by
        unfold readCellOps; cases d.getLsbD i <;> decide
      simp [samples_append, ih, this]; omega
  unfold rbyteOps
  rw [← List.singleton_append, List.append_assoc, waits_append, samples_append, waits_append, samples_append,
    (cells _).1, (cells _).2]
  cases k <;> decide

/-- A trace is no longer, and waits and samples no more, than the numbers given. -/
def Within (n w k : Nat) (ops : List MicroOp) : Prop := ops.length ≤ n ∧ waits ops ≤ w ∧ samples ops ≤ k

theorem Within.append {n w k n' w' k' : Nat} {x y : List MicroOp} (h : Within n w k x)
    (h' : Within n' w' k' y) : Within (n + n') (w + w') (k + k') (x ++ y) := by
  obtain ⟨h1, h2, h3⟩ := h
  obtain ⟨g1, g2, g3⟩ := h'
  exact ⟨by rw [List.length_append]; omega, by rw [waits_append]; omega, by rw [samples_append]; omega⟩

theorem Within.weaken {n w k n' w' k' : Nat} {x : List MicroOp} (h : Within n w k x) (hn : n ≤ n')
    (hw : w ≤ w') (hk : k ≤ k') : Within n' w' k' x :=
  ⟨h.1.trans hn, h.2.1.trans hw, h.2.2.trans hk⟩

theorem within_probe (addr : BusAddr) (k : Bool) : Within 56 21 1 (probeOps addr k) := by
  simp [Within, probeOps, samples_append, wbyteOps_counts]

theorem within_write (addr : BusAddr) (reg val : Byte) (x : Except Cause Unit) :
    Within 148 57 3 (writeOps addr reg val x) := by
  rcases x with (_ | _ | _ | _ | _ | _ | _ | _) | _ <;>
    simp [Within, writeOps, samples_append, wbyteOps_counts]

theorem within_read (addr : BusAddr) (reg : Byte) (x : Except Cause Byte) :
    Within 200 76 11 (readOps addr reg x) := by
  rcases x with (_ | _ | _ | _ | _ | _ | _ | _) | _ <;>
    simp [Within, readOps, samples_append, wbyteOps_counts, rbyteOps_counts]

theorem within_each (addr : BusAddr) (xs : List ((Byte × Byte) × Except Cause Unit)) :
    Within (148 * xs.length) (57 * xs.length) (3 * xs.length) (eachOps addr xs) := by
  induction xs with
  | nil => simp [Within, eachOps, samples]
  | cons x xs ih =>
    exact ((within_write addr x.1.1 x.1.2 x.2).append ih).weaken (by simp +arith) (by simp +arith)
      (by simp +arith)

theorem within_rewrite (p : Params) (r m : Byte) (set : Bool) (f : Except Cause Byte)
    (x : Except Cause Unit) : Within 348 133 14 (rewriteOps p r m set f x) := by
  cases f with
  | error why => exact (within_read ..).weaken (by decide) (by decide) (by decide)
  | ok d => exact (within_read ..).append (within_write ..)

theorem within_begin (p : Params) {e : BeginEnds} (he : e.Possible) : Within 2028 779 55 (beginOps p e) := by
  have l : ((bestEffortWrites p).zip e.best).length = 8 := by
    rw [List.length_zip, he.count]; simp [bestEffortWrites]
  have h := within_each p.devAddr ((bestEffortWrites p).zip e.best)
  rw [l] at h
  exact (((within_write ..).append h).append (within_rewrite ..)).append (within_rewrite ..)

/-! ### Every command -/

/-- What a command that transfers and completes has done: complete frames, in bounds (R132), and an answer
whose data is zero if it is a failure (R28). -/
structure Transferred (w : CommandWord) (s t : State) : Prop where
  done : ∃ ops r, Completed w ops r s t ∧ Frames ops ∧ Within 2028 779 55 ops ∧ (r.ok = false → r = respFail)
  slave : slaveWf s.slave → slaveWf t.slave

/-- A transferring command from idle lines completes, or hangs. -/
theorem transfer_cases {α : Type} {w : CommandWord} {x : Proc α} {f : α → Resp} {n : Nat}
    {ops : α → List MicroOp} {E : α → Prop} {T : α → Slave → Slave → Prop} {K : α → Bool}
    (hb : s.busy = false) (hl : linesIdle s = true)
    (hx : Ends (x (accept w s))
      (fun a t => E a ∧ Ran (ops a) (accept w s) t ∧ T a s.slave t.slave ∧ t.sclo = true ∧ t.sdam = .rel ∧
        t.ackf = K a)
      (HungFrom n (accept w s)))
    (hf : ∀ a, Frames (ops a)) (hw : ∀ a, Within 2028 779 55 (ops a))
    (hr : ∀ a, (f a).ok = false → f a = respFail)
    (hs : ∀ a v v', T a v v' → slaveWf v → slaveWf v') (hn : n ≤ 2028) :
    (∃ t, runTransfer w (do let a ← x; return f a) s = .next t ∧ Transferred w s t) ∨
      ∃ t, runTransfer w (do let a ← x; return f a) s = .next t ∧ HungFrom 2028 (accept w s) t := by
  rcases runTransfer_spec (f := f) hb hl hx with ⟨a, t, h, -, hc, ht, -⟩ | ⟨t, h, hh⟩
  · exact .inl ⟨t, h, ⟨_, _, hc, hf a, hw a, hr a⟩, hs a _ _ ht⟩
  · exact .inr ⟨t, h, hh.weaken hn⟩

theorem respOfWrite_fail (x : Except Cause Unit) (h : (respOfWrite x).ok = false) : respOfWrite x = respFail := by
  cases x with
  | ok _ => cases h
  | error _ => rfl

theorem respOfRead_fail (x : Except Cause Byte) (h : (respOfRead x).ok = false) : respOfRead x = respFail := by
  cases x with
  | ok _ => cases h
  | error _ => rfl

theorem respBool_fail (k : Bool) (h : (respBool k).ok = false) : respBool k = respFail := by
  cases k with
  | true => cases h
  | false => rfl

/-- A discarded write is a write (R172). -/
theorem wrDone_eq (p : Params) (r v : Byte) :
    wrDone p r v = (do let _ ← writeRegister p.devAddr r v; return respDone) := by
  simp [wrDone, wrDiscard, wr]

theorem probe_cases {w : CommandWord} (addr : BusAddr) (hb : s.busy = false) (hl : linesIdle s = true) :
    (∃ t, runTransfer w (do let k ← probe addr; return respBool k) s = .next t ∧ Transferred w s t) ∨
      ∃ t, runTransfer w (do let k ← probe addr; return respBool k) s = .next t ∧
        HungFrom 2028 (accept w s) t :=
  transfer_cases (E := fun _ => True) (T := ProbeTalk addr) (K := fun k => k) hb hl
    (ends_mono (probe_spec addr _) (fun _ _ h => ⟨trivial, h⟩) fun _ h => h) (frames_probe addr)
    (fun k => (within_probe addr k).weaken (by decide) (by decide) (by decide)) respBool_fail
    (fun _ _ _ => probeTalk_wf) (by decide)

theorem read_cases {w : CommandWord} (addr : BusAddr) (reg : Byte) (hb : s.busy = false)
    (hl : linesIdle s = true) :
    (∃ t, runTransfer w (do let x ← readRegister addr reg; return respOfRead x) s = .next t ∧
        Transferred w s t) ∨
      ∃ t, runTransfer w (do let x ← readRegister addr reg; return respOfRead x) s = .next t ∧
        HungFrom 2028 (accept w s) t :=
  transfer_cases hb hl (readRegister_spec addr reg _) (frames_read addr reg)
    (fun x => (within_read addr reg x).weaken (by decide) (by decide) (by decide)) respOfRead_fail
    (fun _ _ _ => readTalk_wf) (by decide)

theorem write_cases {w : CommandWord} (addr : BusAddr) (reg val : Byte) (hb : s.busy = false)
    (hl : linesIdle s = true) :
    (∃ t, runTransfer w (do let x ← writeRegister addr reg val; return respOfWrite x) s = .next t ∧
        Transferred w s t) ∨
      ∃ t, runTransfer w (do let x ← writeRegister addr reg val; return respOfWrite x) s = .next t ∧
        HungFrom 2028 (accept w s) t :=
  transfer_cases hb hl (writeRegister_spec addr reg val _) (frames_write addr reg val)
    (fun x => (within_write addr reg val x).weaken (by decide) (by decide) (by decide)) respOfWrite_fail
    (fun _ _ _ => answers_talk_wf) (by decide)

theorem wrDone_cases {w : CommandWord} (reg val : Byte) (hb : s.busy = false) (hl : linesIdle s = true) :
    (∃ t, runTransfer w (wrDone s.par reg val) s = .next t ∧ Transferred w s t) ∨
      ∃ t, runTransfer w (wrDone s.par reg val) s = .next t ∧ HungFrom 2028 (accept w s) t := by
  rw [wrDone_eq]
  exact transfer_cases (f := fun _ => respDone) hb hl (writeRegister_spec s.par.devAddr reg val _)
    (frames_write _ reg val)
    (fun x => (within_write _ reg val x).weaken (by decide) (by decide) (by decide))
    (fun _ h => by cases h) (fun _ _ _ => answers_talk_wf) (by decide)

theorem begin_cases (hb : s.busy = false) (hl : linesIdle s = true) :
    (∃ t, execDcBegin s = .next t ∧ Transferred (encode .dcBegin) s t) ∨
      ∃ t, execDcBegin s = .next t ∧ HungFrom 2028 (accept (encode .dcBegin) s) t := by
  obtain ⟨-, g1, g2⟩ := linesIdle_iff.1 hl
  rw [execDcBegin, runTransfer_ready hl]
  rcases runCommand_spec hb (initialise_spec s.par (accept (encode .dcBegin) s)) with
    ⟨r, t, h, h1, h2, h3⟩ | ⟨t, h, hh⟩
  · refine .inl ⟨_, h, ?_⟩
    rcases h3 with ⟨rfl, why, -, hr, ht, -⟩ | ⟨rfl, e, he, hr, ht⟩
    · exact ⟨⟨_, _, completed_of_ran hr (h1.trans g1.symm) (h2.trans g2.symm), frames_write ..,
        (within_write ..).weaken (by decide) (by decide) (by decide), fun _ => rfl⟩, answers_talk_wf ht⟩
    · exact ⟨⟨_, _, completed_of_ran hr (h1.trans g1.symm) (h2.trans g2.symm), frames_begin ..,
        within_begin _ he, fun h => by cases h⟩, beginTalk_wf ht⟩
  · exact .inr ⟨t, h, hh⟩

theorem exec_busy (i : Instr) (hb : s.busy = true) : exec i s = .next s := by
  cases i <;> simp [exec, execBeBegin, execBeSethp, execBeProbe, execBeWr8, execBeRd8, execDcBegin,
    execDcSellib, execDcSetmode, execDcSetwave, execDcGo, execDcRdstatus, execDcIsconn,
    runTransfer_busy hb, runCommand_busy hb, hb]

theorem exec_notBegun {i : Instr} (hb : s.busy = false) (ht : transfers i = true) (hl : linesIdle s = false) :
    exec i s = .refused .notBegun := by
  cases i <;> simp [transfers] at ht <;> simp [exec, execBeProbe, execBeWr8, execBeRd8, execDcBegin,
    execDcSellib, execDcSetmode, execDcSetwave, execDcGo, execDcRdstatus, execDcIsconn,
    runTransfer_notBegun hb hl, ht]

/-- A transferring command from idle lines completes its frames, or hangs in a sample. -/
theorem exec_transfers {i : Instr} (hb : s.busy = false) (ht : transfers i = true) (hl : linesIdle s = true) :
    (∃ t, exec i s = .next t ∧ Transferred (encode i) s t) ∨
      ∃ t, exec i s = .next t ∧ HungFrom 2028 (accept (encode i) s) t := by
  cases i with
  | beBegin => cases ht
  | beSethp us => cases ht
  | beProbe addr => exact probe_cases addr hb hl
  | beWr8 addr reg val => exact write_cases addr reg val hb hl
  | beRd8 addr reg nd =>
    cases nd with
    | true => cases ht
    | false => exact read_cases addr reg hb hl
  | dcBegin => exact begin_cases hb hl
  | dcSellib id => exact wrDone_cases regLibsel id hb hl
  | dcSetmode mode => exact wrDone_cases regMode mode hb hl
  | dcSetwave slot effect =>
    have : ¬ 7 < slot.toNat := by simp [transfers] at ht; omega
    simp only [exec, execDcSetwave, this, if_false]
    exact wrDone_cases (waveRegister slot) effect hb hl
  | dcGo => exact wrDone_cases regGo 0x01 hb hl
  | dcRdstatus => exact read_cases s.par.devAddr regStatus hb hl
  | dcIsconn => exact probe_cases s.par.devAddr hb hl

/-- What the commands that do not transfer do: `BE.BEGIN`, `BE.SETHP`, and the two that only answer
(R111, R112, R145, R163, R166). -/
theorem exec_local {i : Instr} (hb : s.busy = false) (ht : transfers i = false) :
    (i = .beBegin ∧ linesUnconfigured s ∧
        exec i s = .next
          { s with
            sclm := .out, sclo := true, sdam := .rel, tr := .sdaRel :: .sclHi :: s.tr, resp := respDone,
            opc := 0, a := 0, b := 0, c := 0, busy := false, upc := 0 }) ∨
      (i = .beBegin ∧ ¬ linesUnconfigured s ∧ exec i s = .refused .begunTwice) ∨
      (∃ us, i = .beSethp us ∧
        exec i s = .next (complete respDone { accept (encode (.beSethp us)) s with hp := us })) ∨
      i ≠ .beBegin ∧
        ∃ r, (r = respDone ∨ r = respFail) ∧ exec i s = .next (complete r (accept (encode i) s)) := by
  cases i with
  | beBegin =>
    by_cases h : linesUnconfigured s
    · refine .inl ⟨rfl, h, ?_⟩
      simp only [exec, execBeBegin, hb, h.1, h.2, runCommand]
      rfl
    · refine .inr (.inl ⟨rfl, h, ?_⟩)
      have : (s.sclm == .unconf && s.sdam == .unconf) = false := by
        rw [Bool.eq_false_iff]; simpa [linesUnconfigured] using h
      simp [exec, execBeBegin, hb, this]
  | beSethp us =>
    refine .inr (.inr (.inl ⟨us, rfl, ?_⟩))
    simp only [exec, execBeSethp, runCommand, hb]
    rfl
  | beRd8 addr reg nd =>
    cases nd with
    | false => cases ht
    | true =>
      refine .inr (.inr (.inr ⟨(fun h => by cases h), respFail, .inr rfl, ?_⟩))
      simp only [exec, execBeRd8, runCommand, hb]
      rfl
  | dcSetwave slot effect =>
    have : 7 < slot.toNat := by simp [transfers] at ht; omega
    refine .inr (.inr (.inr ⟨(fun h => by cases h), respDone, .inl rfl, ?_⟩))
    simp only [exec, execDcSetwave, this, runCommand, hb]
    rfl
  | beProbe _ => cases ht
  | beWr8 _ _ _ => cases ht
  | dcBegin => cases ht
  | dcSellib _ => cases ht
  | dcSetmode _ => cases ht
  | dcGo => cases ht
  | dcRdstatus => cases ht
  | dcIsconn => cases ht

/-- What a next state of an idle block can be. -/
theorem exec_next {i : Instr} (hb : s.busy = false) (hn : exec i s = .next t) :
    (linesIdle s = true ∧ Transferred (encode i) s t) ∨
      (linesIdle s = true ∧ HungFrom 2028 (accept (encode i) s) t) ∨
      (i = .beBegin ∧ linesUnconfigured s ∧
        t = { s with
          sclm := .out, sclo := true, sdam := .rel, tr := .sdaRel :: .sclHi :: s.tr, resp := respDone,
          opc := 0, a := 0, b := 0, c := 0, busy := false, upc := 0 }) ∨
      (∃ us, i = .beSethp us ∧ t = complete respDone { accept (encode i) s with hp := us }) ∨
      ∃ r, (r = respDone ∨ r = respFail) ∧ t = complete r (accept (encode i) s) := by
  cases ht : transfers i with
  | true =>
    cases hl : linesIdle s with
    | true =>
      rcases exec_transfers hb ht hl with ⟨u, h, k⟩ | ⟨u, h, k⟩ <;> rw [h] at hn <;> cases hn
      · exact .inl ⟨rfl, k⟩
      · exact .inr (.inl ⟨rfl, k⟩)
    | false => rw [exec_notBegun hb ht hl] at hn; cases hn
  | false =>
    rcases exec_local hb ht with ⟨h1, h2, h3⟩ | ⟨h1, h2, h3⟩ | ⟨us, h1, h3⟩ | ⟨-, r, hr, h3⟩ <;>
      rw [h3] at hn <;> cases hn
    · exact .inr (.inr (.inl ⟨h1, h2, rfl⟩))
    · exact .inr (.inr (.inr (.inl ⟨us, h1, by rw [h1]⟩)))
    · exact .inr (.inr (.inr (.inr ⟨r, hr, rfl⟩)))

end Sys2Proof.Machine
end

