-- ==== Sys2Proof/Laws/Answers.lean ====
section
/-! SUPPORT. What commands given from idle lines leave, with the slave's part said, and what a scripted
oracle and the reference slave make of it (R33, R62 to R65). -/

namespace Sys2Proof.Machine

variable {s : State} {w : CommandWord}

/-! ### Completion with the slave's part -/

theorem write_ready (hr : ReadyToTransfer s) (addr : BusAddr) (reg val : Byte) :
    ∃ x t, runTransfer w (do let x ← writeRegister addr reg val; return respOfWrite x) s = .next t ∧
      writeEnd x = true ∧ Completed w (writeOps addr reg val x) (respOfWrite x) s t ∧
      WriteTalk addr reg val x s.slave t.slave ∧ t.ackf = (respOfWrite x).ok := by
  obtain ⟨⟨hb, hn⟩, hl⟩ := hr
  rcases runTransfer_spec (w := w) (f := respOfWrite) hb hl (writeRegister_spec addr reg val _) with
    ⟨x, t, h⟩ | ⟨t, -, h⟩
  · exact ⟨x, t, h⟩
  · exact absurd h (not_hungFrom hn)

theorem read_ready (hr : ReadyToTransfer s) (addr : BusAddr) (reg : Byte) :
    ∃ x t, runTransfer w (do let x ← readRegister addr reg; return respOfRead x) s = .next t ∧
      readEnd x = true ∧ Completed w (readOps addr reg x) (respOfRead x) s t ∧
      ReadTalk addr reg x s.slave t.slave ∧ t.ackf = (respOfRead x).ok := by
  obtain ⟨⟨hb, hn⟩, hl⟩ := hr
  rcases runTransfer_spec (w := w) (f := respOfRead) hb hl (readRegister_spec addr reg _) with
    ⟨x, t, h⟩ | ⟨t, -, h⟩
  · exact ⟨x, t, h⟩
  · exact absurd h (not_hungFrom hn)

theorem probe_ready (hr : ReadyToTransfer s) (addr : BusAddr) :
    ∃ k t, runTransfer w (do let k ← probe addr; return respBool k) s = .next t ∧
      Completed w (probeOps addr k) (respBool k) s t ∧ ProbeTalk addr k s.slave t.slave ∧ t.ackf = k := by
  obtain ⟨⟨hb, hn⟩, hl⟩ := hr
  rcases runTransfer_spec (w := w) (f := respBool) (E := fun _ => True) (ops := probeOps addr)
      (T := ProbeTalk addr) (K := fun k => k) hb hl
      (ends_mono (probe_spec addr _) (fun _ _ h => ⟨trivial, h⟩) fun _ h => h) with
    ⟨k, t, h, -, h'⟩ | ⟨t, -, h⟩
  · exact ⟨k, t, h, h'⟩
  · exact absurd h (not_hungFrom hn)

theorem wrDone_ready (hr : ReadyToTransfer s) (reg val : Byte) :
    ∃ x t, runTransfer w (wrDone s.par reg val) s = .next t ∧ writeEnd x = true ∧
      Completed w (writeOps s.par.devAddr reg val x) respDone s t ∧
      WriteTalk s.par.devAddr reg val x s.slave t.slave ∧ t.ackf = (respOfWrite x).ok := by
  obtain ⟨⟨hb, hn⟩, hl⟩ := hr
  rw [wrDone_eq]
  rcases runTransfer_spec (w := w) (f := fun _ => respDone) hb hl
      (writeRegister_spec s.par.devAddr reg val _) with ⟨x, t, h⟩ | ⟨t, -, h⟩
  · exact ⟨x, t, h⟩
  · exact absurd h (not_hungFrom hn)

theorem begin_ready (hr : ReadyToTransfer s) :
    ∃ t, exec .dcBegin s = .next t ∧
      ((∃ why, writeEnd (.error why) = true ∧
          Completed (encode .dcBegin) (writeOps s.par.devAddr regMode 0x00 (.error why)) respFail s t ∧
          WriteTalk s.par.devAddr regMode 0x00 (.error why) s.slave t.slave) ∨
        ∃ e : BeginEnds, e.Possible ∧ Completed (encode .dcBegin) (beginOps s.par e) respDone s t ∧
          BeginTalk s.par e s.slave t.slave) := by
  obtain ⟨⟨hb, hn⟩, hl⟩ := hr
  obtain ⟨-, g1, g2⟩ := linesIdle_iff.1 hl
  rw [exec, execDcBegin, runTransfer_ready hl]
  rcases runCommand_spec hb (initialise_spec s.par (accept (encode .dcBegin) s)) with
    ⟨r, t, h, h1, h2, h3⟩ | ⟨t, -, h⟩
  · refine ⟨_, h, ?_⟩
    rcases h3 with ⟨rfl, why, hw, hr, ht, -⟩ | ⟨rfl, e, he, hr, ht⟩
    · exact .inl ⟨why, hw, completed_of_ran hr (h1.trans g1.symm) (h2.trans g2.symm), ht⟩
    · exact .inr ⟨e, he, completed_of_ran hr (h1.trans g1.symm) (h2.trans g2.symm), ht⟩
  · exact absurd h (not_hungFrom hn)

/-! ### A scripted oracle -/

section script

variable {addr : BusAddr} {reg val : Byte} {rest : List Bool} {v' : Slave}

theorem writeTalk_nackAddrW {x : Except Cause Unit}
    (h : WriteTalk addr reg val x (.oracle (true :: rest)) v') :
    x = .error .nackAddrW ∧ v' = .oracle rest := by
  rcases h with ⟨rfl, u, hu, rfl⟩ | ⟨u, hu, -⟩
  · obtain ⟨-, rfl⟩ := answers_script hu; exact ⟨rfl, rfl⟩
  · cases (answers_script hu).1

theorem writeTalk_nackReg {x : Except Cause Unit}
    (h : WriteTalk addr reg val x (.oracle (false :: true :: rest)) v') :
    x = .error .nackReg ∧ v' = .oracle rest := by
  rcases h with ⟨rfl, u, hu, rfl⟩ | ⟨u, hu, h⟩
  · cases (answers_script hu).1
  · obtain ⟨-, rfl⟩ := answers_script hu
    rcases h with ⟨rfl, w, hw, rfl⟩ | ⟨w, hw, -⟩
    · obtain ⟨-, rfl⟩ := answers_script hw; exact ⟨rfl, rfl⟩
    · cases (answers_script hw).1

theorem writeTalk_third {x : Except Cause Unit} {level : Bool}
    (h : WriteTalk addr reg val x (.oracle (false :: false :: level :: rest)) v') :
    x = (if level then .error .nackData else .ok ()) ∧ v' = .oracle rest := by
  rcases h with ⟨rfl, u, hu, rfl⟩ | ⟨u, hu, h⟩
  · cases (answers_script hu).1
  · obtain ⟨-, rfl⟩ := answers_script hu
    rcases h with ⟨rfl, w, hw, rfl⟩ | ⟨w, hw, h⟩
    · cases (answers_script hw).1
    · obtain ⟨-, rfl⟩ := answers_script hw
      rcases h with ⟨rfl, z, hz, rfl⟩ | ⟨rfl, z, hz, rfl⟩ <;> obtain ⟨h, rfl⟩ := answers_script hz <;>
        cases level <;> simp at h <;> exact ⟨rfl, rfl⟩

theorem readTalk_nackAddrW {x : Except Cause Byte} (h : ReadTalk addr reg x (.oracle (true :: rest)) v') :
    x = .error .nackAddrW ∧ v' = .oracle rest := by
  rcases h with ⟨rfl, u, hu, rfl⟩ | ⟨u, hu, -⟩
  · obtain ⟨-, rfl⟩ := answers_script hu; exact ⟨rfl, rfl⟩
  · cases (answers_script hu).1

theorem readTalk_nackReg {x : Except Cause Byte}
    (h : ReadTalk addr reg x (.oracle (false :: true :: rest)) v') :
    x = .error .nackReg ∧ v' = .oracle rest := by
  rcases h with ⟨rfl, u, hu, rfl⟩ | ⟨u, hu, h⟩
  · cases (answers_script hu).1
  · obtain ⟨-, rfl⟩ := answers_script hu
    rcases h with ⟨rfl, w, hw, rfl⟩ | ⟨w, hw, -⟩
    · obtain ⟨-, rfl⟩ := answers_script hw; exact ⟨rfl, rfl⟩
    · cases (answers_script hw).1

theorem readTalk_nackAddrR {x : Except Cause Byte}
    (h : ReadTalk addr reg x (.oracle (false :: false :: true :: rest)) v') :
    x = .error .nackAddrR ∧ v' = .oracle rest := by
  rcases h with ⟨rfl, u, hu, rfl⟩ | ⟨u, hu, h⟩
  · cases (answers_script hu).1
  · obtain ⟨-, rfl⟩ := answers_script hu
    rcases h with ⟨rfl, w, hw, rfl⟩ | ⟨w, hw, h⟩
    · cases (answers_script hw).1
    · obtain ⟨-, rfl⟩ := answers_script hw
      rcases h with ⟨rfl, z, hz, rfl⟩ | ⟨d, z, y, rfl, hz, hy, rfl⟩
      · obtain ⟨-, rfl⟩ := answers_script hz; exact ⟨rfl, rfl⟩
      · cases (answers_script hz).1

/-- A byte is known by its bits on the wire. -/
theorem wireBits_inj {d e : Byte} (h : wireBits d = wireBits e) : d = e := by
  simp only [wireBits, bitOrder, List.map_cons, List.map_nil, List.cons.injEq, and_true] at h
  obtain ⟨h7, h6, h5, h4, h3, h2, h1, h0⟩ := h
  apply BitVec.eq_of_getLsbD_eq
  intro i hi
  have : i = 0 ∨ i = 1 ∨ i = 2 ∨ i = 3 ∨ i = 4 ∨ i = 5 ∨ i = 6 ∨ i = 7 := by omega
  rcases this with rfl | rfl | rfl | rfl | rfl | rfl | rfl | rfl <;> assumption

theorem readTalk_ok {x : Except Cause Byte} {d : Byte}
    (h : ReadTalk addr reg x (.oracle (false :: false :: false :: (wireBits d ++ rest))) v') :
    x = .ok d ∧ v' = .oracle rest := by
  rcases h with ⟨rfl, u, hu, rfl⟩ | ⟨u, hu, h⟩
  · cases (answers_script hu).1
  · obtain ⟨-, rfl⟩ := answers_script hu
    rcases h with ⟨rfl, w, hw, rfl⟩ | ⟨w, hw, h⟩
    · cases (answers_script hw).1
    · obtain ⟨-, rfl⟩ := answers_script hw
      rcases h with ⟨rfl, z, hz, rfl⟩ | ⟨e, z, y, rfl, hz, hy, rfl⟩
      · cases (answers_script hz).1
      · obtain ⟨-, rfl⟩ := answers_script hz
        obtain ⟨hb, rfl⟩ := answersBits_script (by simp [wireBits]) hy
        exact ⟨by rw [wireBits_inj hb], rfl⟩

end script

/-! ### The reference slave's registers -/

theorem put_read {ro : List Byte} {m : Memory} (hm : m.wf) (reg val q : Byte) :
    (RefSlave.put ro m reg val).read q = if q = reg ∧ reg ∉ ro then val else m.read q := by
  unfold RefSlave.put
  by_cases h : reg ∈ ro <;> simp [h, read_write hm]

theorem put_wf {ro : List Byte} {m : Memory} (hm : m.wf) (reg val : Byte) :
    (RefSlave.put ro m reg val).wf := by
  unfold RefSlave.put
  split
  · exact hm
  · exact write_wf hm _ _

/-- Writes one after another to a slave that hears them. -/
theorem eachTalk_reference {ws : List (Byte × Byte)} {xs : List (Except Cause Unit)} {addr : BusAddr}
    {r : RefSlave} {v' : Slave} (hl : xs.length = ws.length) (hh : r.hears addr = true)
    (h : EachTalk addr (ws.zip xs) (.reference r) v') :
    xs = List.replicate ws.length (.ok ()) ∧
      ∃ r', v' = .reference r' ∧ r.sameDevice r' ∧
        r'.rf = ws.foldl (fun m w => RefSlave.put r.ro m w.1 w.2) r.rf ∧ (r.rf.wf → r'.rf.wf) := by
  induction ws generalizing xs r with
  | nil =>
    cases xs with
    | nil => cases h; exact ⟨rfl, r, rfl, ⟨rfl, rfl, rfl⟩, rfl, id⟩
    | cons => simp at hl
  | cons w ws ih =>
    cases xs with
    | nil => simp at hl
    | cons x xs =>
      obtain ⟨u, hu, hs⟩ := h
      obtain ⟨rfl, r1, rfl, h1, h2, h3, h4, -⟩ := writeTalk_reference hu
      have heard : r1.hears addr = true := by simpa [RefSlave.hears, h1, h2] using hh
      obtain ⟨rfl, r2, rfl, ⟨g1, g2, g3⟩, g4, g5⟩ := ih (by simpa using hl) heard hs
      simp only [hh, if_true] at h4
      exact ⟨by simp [hh, List.replicate_succ], r2, rfl, ⟨g1.trans h1, g2.trans h2, g3.trans h3⟩,
        by simp [g4, h3, h4], fun hw => g5 (by rw [h4]; exact put_wf hw _ _)⟩

/-- A rewrite at a slave that hears it. -/
theorem rewriteTalk_reference {p : Params} {r m : Byte} {set : Bool} {f : Except Cause Byte}
    {x : Except Cause Unit} {v' : Slave} {s : RefSlave} (hh : s.hears p.devAddr = true)
    (h : RewriteTalk p r m set f x (.reference s) v') :
    f = .ok (s.rf.read r) ∧ x = .ok () ∧
      ∃ r', v' = .reference r' ∧ s.sameDevice r' ∧ r'.ptr = r ∧
        r'.rf = RefSlave.put s.ro s.rf r (force (s.rf.read r) m set) := by
  cases f with
  | error why =>
    have := (readTalk_reference h).1
    rw [hh] at this
    cases this
  | ok d =>
    obtain ⟨u, hu, hs⟩ := h
    obtain ⟨h0, r1, rfl, h1, h2, h3, h4, -⟩ := readTalk_reference hu
    rw [hh] at h0
    cases h0
    obtain ⟨g0, r2, rfl, g1, g2, g3, g4, g5⟩ := writeTalk_reference hs
    have heard : r1.hears p.devAddr = true := by simpa [RefSlave.hears, h1, h2] using hh
    rw [heard] at g0 g4 g5
    exact ⟨rfl, g0, r2, rfl, ⟨g1.trans h1, g2.trans h2, g3.trans h3⟩, g5, by simpa [h3, h4] using g4⟩

end Sys2Proof.Machine
end

