-- ==== Sys2Proof/Laws/Decode.lean ====
section
/-! SUPPORT. The fields of a packed word, and what R82's masks say of a word's fields (R81, R82, R85). -/

namespace Sys2Proof

/-! ### The packed word -/

/-- The value of a packed word, field by field (R81). -/
theorem packWord_toNat (o : Byte) (a : BusAddr) (b c : Byte) :
    (packWord o a b c).toNat = o.toNat * 2 ^ 24 + a.toNat * 2 ^ 16 + b.toNat * 2 ^ 8 + c.toNat := by
  have ha := a.isLt
  have hb := b.isLt
  have hc := c.isLt
  have e : (packWord o a b c).toNat = (((o.toNat <<< 1 ||| 0) <<< 7 ||| a.toNat) <<< 8 ||| b.toNat) <<< 8 ||| c.toNat := by
    simp only [packWord, BitVec.toNat_append]
    rfl
  rw [e, ← Nat.shiftLeft_add_eq_or_of_lt hc, ← Nat.shiftLeft_add_eq_or_of_lt hb,
    ← Nat.shiftLeft_add_eq_or_of_lt ha, Nat.or_zero]
  simp only [Nat.shiftLeft_eq]
  omega

/-- A field of a word as a number. -/
theorem extract_toNat (w : CommandWord) (k n : Nat) :
    (w.extractLsb' k n).toNat = w.toNat / 2 ^ k % 2 ^ n := by
  simp [BitVec.extractLsb'_toNat, Nat.shiftRight_eq_div_pow]

@[simp] theorem fieldOpc_packWord (o : Byte) (a : BusAddr) (b c : Byte) :
    fieldOpc (packWord o a b c) = o := by
  apply BitVec.eq_of_toNat_eq
  rw [fieldOpc, extract_toNat, packWord_toNat]
  omega

@[simp] theorem fieldA_packWord (o : Byte) (a : BusAddr) (b c : Byte) :
    fieldA (packWord o a b c) = a := by
  apply BitVec.eq_of_toNat_eq
  rw [fieldA, extract_toNat, packWord_toNat]
  omega

@[simp] theorem fieldB_packWord (o : Byte) (a : BusAddr) (b c : Byte) :
    fieldB (packWord o a b c) = b := by
  apply BitVec.eq_of_toNat_eq
  rw [fieldB, extract_toNat, packWord_toNat]
  omega

@[simp] theorem fieldC_packWord (o : Byte) (a : BusAddr) (b c : Byte) :
    fieldC (packWord o a b c) = c := by
  apply BitVec.eq_of_toNat_eq
  rw [fieldC, extract_toNat, packWord_toNat]
  omega

/-- A single bit of a word as a number. -/
theorem getLsbD_toNat (w : CommandWord) (k : Nat) : w.getLsbD k = decide (w.toNat / 2 ^ k % 2 = 1) := by
  rw [BitVec.getLsbD, Nat.testBit_eq_decide_div_mod_eq]

@[simp] theorem fieldZ23_packWord (o : Byte) (a : BusAddr) (b c : Byte) :
    fieldZ23 (packWord o a b c) = false := by
  rw [fieldZ23, getLsbD_toNat, packWord_toNat]
  have := a.isLt
  simp only [decide_eq_false_iff_not]
  omega

/-- A word whose bit 23 is zero is its fields (R81). -/
theorem packWord_fields {w : CommandWord} (h : fieldZ23 w = false) :
    packWord (fieldOpc w) (fieldA w) (fieldB w) (fieldC w) = w := by
  apply BitVec.eq_of_toNat_eq
  rw [fieldZ23, getLsbD_toNat] at h
  simp only [decide_eq_false_iff_not] at h
  rw [packWord_toNat, fieldOpc, fieldA, fieldB, fieldC]
  simp only [extract_toNat]
  have := w.isLt
  omega

/-! ### Masks and fields -/

/-- A mask over `OPC` and reserved bits is the two checks of R85 in one. -/
theorem and_split {w z : CommandWord} {o : Byte} (hz : z.extractLsb' 24 8 = 0) :
    w &&& (0xFF000000 ||| z) = o ++ 0#24 ↔ fieldOpc w = o ∧ w &&& z = 0 := by
  have hz' : ∀ i, 24 ≤ i → z.getLsbD i = false := by
    intro i hi
    by_cases h : i < 32
    · have := congrArg (BitVec.getLsbD · (i - 24)) hz
      simp only [BitVec.getLsbD_extractLsb'] at this
      rw [show 24 + (i - 24) = i by omega] at this
      simpa [show i - 24 < 8 by omega] using this
    · exact BitVec.getLsbD_of_ge _ _ (by omega)
  have low : ∀ i, i < 24 → (0xFF000000 : CommandWord).getLsbD i = false := by decide
  have high : ∀ i, i < 8 → (0xFF000000 : CommandWord).getLsbD (24 + i) = true := by decide
  have app : ∀ i, (o ++ 0#24 : CommandWord).getLsbD i = if i < 24 then false else o.getLsbD (i - 24) := by
    intro i
    refine (BitVec.getLsbD_append (x := o) (y := 0#24) (i := i)).trans ?_
    split <;> simp
  generalize (0xFF000000 : CommandWord) = top at low high
  constructor
  · intro h
    have hbit : ∀ i, (w.getLsbD i && (top.getLsbD i || z.getLsbD i)) = (o ++ 0#24 : CommandWord).getLsbD i := by
      intro i
      rw [← h, BitVec.getLsbD_and, BitVec.getLsbD_or]
    constructor
    · apply BitVec.eq_of_getLsbD_eq
      intro i hi
      have := hbit (24 + i)
      rw [app, high i hi] at this
      simpa [fieldOpc, hi] using this
    · apply BitVec.eq_of_getLsbD_eq
      intro i hi
      by_cases h24 : i < 24
      · have := hbit i
        rw [app, low i h24] at this
        simpa [h24] using this
      · simp [hz' i (by omega)]
  · rintro ⟨ho, h⟩
    apply BitVec.eq_of_getLsbD_eq
    intro i hi
    rw [app]
    by_cases h24 : i < 24
    · have := congrArg (BitVec.getLsbD · i) h
      rw [if_pos h24, BitVec.getLsbD_and, BitVec.getLsbD_or, low i h24]
      simpa using this
    · have h1 := high (i - 24) (by omega)
      have h2 : 24 + (i - 24) = i := by omega
      rw [h2] at h1
      rw [if_neg h24, BitVec.getLsbD_and, BitVec.getLsbD_or, h1, ← ho, fieldOpc, BitVec.getLsbD_extractLsb', h2]
      simp [show i - 24 < 8 by omega]

/-- What a row of R82 asks of a word: its operation code, and zeros where its format says so (R81). -/
theorem selects_iff {r : OpcodeRow} (hr : r ∈ opcodeMap) (w : CommandWord) :
    r.selects w = true ↔ fieldOpc w = r.opc ∧ w &&& r.format.mustBeZero = 0 := by
  have key : ∀ r ∈ opcodeMap, r.mask = 0xFF000000 ||| r.format.mustBeZero ∧ r.pattern = r.opc ++ 0#24 ∧
      r.format.mustBeZero.extractLsb' 24 8 = 0 := by decide
  obtain ⟨h1, h2, h3⟩ := key r hr
  rw [OpcodeRow.selects, beq_iff_eq, h1, h2, and_split h3]

/-- A word has zeros at a field exactly when the field is zero. -/
theorem and_field (w m : CommandWord) (k n : Nat) (hm : ∀ i, i < 32 → (m.getLsbD i = true ↔ k ≤ i ∧ i < k + n))
    (hk : k + n ≤ 32) : w &&& m = 0 ↔ w.extractLsb' k n = 0 := by
  constructor
  · intro h
    apply BitVec.eq_of_getLsbD_eq
    intro i hi
    have := congrArg (BitVec.getLsbD · (k + i)) h
    have hb := (hm (k + i) (by omega)).2 ⟨by omega, by omega⟩
    simpa [hb, hi] using this
  · intro h
    apply BitVec.eq_of_getLsbD_eq
    intro i hi
    by_cases hf : k ≤ i ∧ i < k + n
    · have := congrArg (BitVec.getLsbD · (i - k)) h
      simp only [BitVec.getLsbD_extractLsb', show k + (i - k) = i by omega] at this
      have h1 : i - k < n := by omega
      simp only [h1, decide_true, Bool.true_and] at this
      simp [this]
    · have : m.getLsbD i = false := by
        cases h' : m.getLsbD i with
        | false => rfl
        | true => exact absurd ((hm i hi).1 h') hf
      simp [this]

/-- Zeros under two masks. -/
theorem and_or_zero (w x y : CommandWord) : w &&& (x ||| y) = 0 ↔ w &&& x = 0 ∧ w &&& y = 0 := by
  rw [BitVec.and_or_distrib_left]
  constructor
  · intro h
    constructor <;> apply BitVec.eq_of_getLsbD_eq <;> intro i hi <;>
      · have := congrArg (BitVec.getLsbD · i) h
        simp only [BitVec.getLsbD_or, BitVec.ofNat_eq_ofNat, BitVec.getLsbD_zero, Bool.or_eq_false_iff] at this ⊢
        simp [this.1, this.2]
  · rintro ⟨h1, h2⟩
    simp [h1, h2]

theorem zero_z (w : CommandWord) : w &&& Format.z.mustBeZero = 0 ↔ w.extractLsb' 0 24 = 0 :=
  and_field w _ 0 24 (by decide) (by decide)

theorem zero_i (w : CommandWord) : w &&& Format.i.mustBeZero = 0 ↔ w.extractLsb' 16 8 = 0 :=
  and_field w _ 16 8 (by decide) (by decide)

theorem zero_bc (w : CommandWord) : w &&& Format.bc.mustBeZero = 0 ↔ w.extractLsb' 16 8 = 0 :=
  and_field w _ 16 8 (by decide) (by decide)

theorem zero_c (w : CommandWord) : w &&& Format.c.mustBeZero = 0 ↔ w.extractLsb' 8 16 = 0 :=
  and_field w _ 8 16 (by decide) (by decide)

theorem zero_abc (w : CommandWord) : w &&& Format.abc.mustBeZero = 0 ↔ fieldZ23 w = false := by
  have h := and_field w Format.abc.mustBeZero 23 1 (by decide) (by decide)
  rw [h]
  constructor
  · intro e
    have := congrArg (BitVec.getLsbD · 0) e
    simpa [fieldZ23] using this
  · intro e
    apply BitVec.eq_of_getLsbD_eq
    intro i hi
    have : i = 0 := by omega
    subst this
    simpa [fieldZ23] using e

theorem zero_a (w : CommandWord) :
    w &&& Format.a.mustBeZero = 0 ↔ fieldZ23 w = false ∧ w.extractLsb' 0 16 = 0 := by
  rw [show Format.a.mustBeZero = Format.abc.mustBeZero ||| 0x0000FFFF by decide, and_or_zero, zero_abc,
    and_field w 0x0000FFFF 0 16 (by decide) (by decide)]

theorem zero_abn (w : CommandWord) :
    w &&& Format.abn.mustBeZero = 0 ↔ fieldZ23 w = false ∧ w.extractLsb' 1 7 = 0 := by
  rw [show Format.abn.mustBeZero = Format.abc.mustBeZero ||| 0x000000FE by decide, and_or_zero, zero_abc,
    and_field w 0x000000FE 1 7 (by decide) (by decide)]

/-- Legality (R85) in terms of a word's fields. -/
theorem wordLegal_fields (w : CommandWord) :
    wordLegal w = ((opcodeMap.filter fun r =>
      decide (fieldOpc w = r.opc) && decide (w &&& r.format.mustBeZero = 0)).length == 1) := by
  unfold wordLegal
  congr 2
  refine List.filter_congr fun r hr => ?_
  rw [Bool.eq_iff_iff, selects_iff hr]
  simp

/-! ### The decoder -/

/-- The word is the packing of its operation code and fields that agree with its own, given what a
format asks to be zero. -/
theorem pack_eq {w : CommandWord} {o : Byte} {a : BusAddr} {b c : Byte} (ho : (fieldOpc w).toNat = o.toNat)
    (hz : fieldZ23 w = false) (ha : fieldA w = a) (hb : fieldB w = b) (hc : fieldC w = c) :
    packWord o a b c = w := by
  rw [← packWord_fields hz, ha, hb, hc, BitVec.eq_of_toNat_eq ho]

/-- A field inside a zero field is zero. -/
theorem extract_zero {w : CommandWord} {k n j m : Nat} (h : w.extractLsb' k n = 0) (h1 : k ≤ j)
    (h2 : j + m ≤ k + n) : w.extractLsb' j m = 0 := by
  apply BitVec.eq_of_getLsbD_eq
  intro i hi
  have := congrArg (BitVec.getLsbD · (j + i - k)) h
  have e : k + (j + i - k) = j + i := by omega
  simp only [BitVec.getLsbD_extractLsb', e] at this
  have : (w.getLsbD (j + i)) = false := by simpa [show j + i - k < n by omega] using this
  simp [this, hi]

theorem z23_zero {w : CommandWord} {k n : Nat} (h : w.extractLsb' k n = 0) (h1 : k ≤ 23)
    (h2 : 24 ≤ k + n) : fieldZ23 w = false := by
  have := congrArg (BitVec.getLsbD · 0) (extract_zero (j := 23) (m := 1) h h1 (by omega))
  simpa [fieldZ23] using this

/-- What the decoder makes of a word, in the terms of R82's table and R81's zeros. -/
theorem decode_cases (w : CommandWord) :
    (∃ i, ∃ r ∈ opcodeMap, decode w = .ok i ∧ r.mnemonic = i.mnemonic ∧ r.opc = fieldOpc w ∧
        w &&& r.format.mustBeZero = 0 ∧ encode i = w) ∨
      (decode w = .error .reservedBits ∧
        ∃ r ∈ opcodeMap, r.opc = fieldOpc w ∧ w &&& r.format.mustBeZero ≠ 0) ∨
      (decode w = .error .unknownOpcode ∧ ∀ r ∈ opcodeMap, r.opc ≠ fieldOpc w) := by
  have fin : ∀ {i : Instr} {b : Bool} (r : OpcodeRow), r ∈ opcodeMap →
      decode w = ifZero b i → r.mnemonic = i.mnemonic → (fieldOpc w).toNat = r.opc.toNat →
      (w &&& r.format.mustBeZero = 0 ↔ b = true) → (b = true → encode i = w) →
      (∃ i, ∃ r ∈ opcodeMap, decode w = .ok i ∧ r.mnemonic = i.mnemonic ∧ r.opc = fieldOpc w ∧
        w &&& r.format.mustBeZero = 0 ∧ encode i = w) ∨
      (decode w = .error .reservedBits ∧
        ∃ r ∈ opcodeMap, r.opc = fieldOpc w ∧ w &&& r.format.mustBeZero ≠ 0) := by
    intro i b r hr hd hm ho hz he
    have ho' := (BitVec.eq_of_toNat_eq ho).symm
    cases b with
    | true => exact .inl ⟨i, r, hr, hd, hm, ho', hz.2 rfl, he rfl⟩
    | false => exact .inr ⟨hd, r, hr, ho', fun h => by cases hz.1 h⟩
  have hd : decode w = decode w := rfl
  conv_rhs at hd => unfold decode
  have zz : (w.extractLsb' 0 24 == 0) = true → ∀ o : Byte, (fieldOpc w).toNat = o.toNat → packWord o 0 0 0 = w := by
    intro h o ho
    have h := eq_of_beq h
    exact pack_eq ho (z23_zero h (by omega) (by omega)) (extract_zero h (by omega) (by omega))
      (extract_zero h (by omega) (by omega)) (extract_zero h (by omega) (by omega))
  split at hd
  case h_13 h =>
    refine .inr (.inr ⟨hd, ?_⟩)
    intro r hr e
    have key : ∀ r ∈ opcodeMap, r.opc.toNat ∈ [0, 1, 2, 3, 4, 16, 17, 18, 19, 20, 21, 22] := by decide
    have := key r hr
    rw [e] at this
    simp_all
  all_goals
    rename_i ho
    rw [← or_assoc]
    left
  · exact fin ⟨0x00, "BE.BEGIN", .z, 0x00000000, 0xFFFFFFFF⟩ (by decide) hd rfl ho
      (by rw [zero_z]; simp) (fun h => zz h _ ho)
  · refine fin ⟨0x01, "BE.SETHP", .i, 0x01000000, 0xFFFF0000⟩ (by decide) hd rfl ho
      (by rw [zero_i]; simp) (fun h => ?_)
    have h := eq_of_beq h
    refine pack_eq ho (z23_zero h (by omega) (by omega)) (extract_zero h (by omega) (by omega)) ?_ ?_ <;>
      (apply BitVec.eq_of_getLsbD_eq; intro i hi; simp [fieldB, fieldC, fieldImm, hi]; try omega)
  · refine fin ⟨0x02, "BE.PROBE", .a, 0x02000000, 0xFF80FFFF⟩ (by decide) hd rfl ho
      (by rw [zero_a]; simp) (fun h => ?_)
    simp only [Bool.and_eq_true, Bool.not_eq_true', beq_iff_eq] at h
    exact pack_eq ho h.1 rfl (extract_zero h.2 (by omega) (by omega)) (extract_zero h.2 (by omega) (by omega))
  · refine fin ⟨0x03, "BE.WR8", .abc, 0x03000000, 0xFF800000⟩ (by decide) hd rfl ho
      (by rw [zero_abc]; simp) (fun h => ?_)
    exact pack_eq ho (by simpa using h) rfl rfl rfl
  · refine fin ⟨0x04, "BE.RD8", .abn, 0x04000000, 0xFF8000FE⟩ (by decide) hd rfl ho
      (by rw [zero_abn]; simp) (fun h => ?_)
    simp only [Bool.and_eq_true, Bool.not_eq_true', beq_iff_eq] at h
    refine pack_eq ho h.1 rfl rfl ?_
    apply BitVec.eq_of_toNat_eq
    have h2 := congrArg BitVec.toNat h.2
    rw [extract_toNat] at h2
    rw [fieldC, extract_toNat, fieldNd, getLsbD_toNat]
    split <;> rename_i hn <;> simp at hn h2 ⊢ <;> omega
  · exact fin ⟨0x10, "DC.BEGIN", .z, 0x10000000, 0xFFFFFFFF⟩ (by decide) hd rfl ho
      (by rw [zero_z]; simp) (fun h => zz h _ ho)
  · refine fin ⟨0x11, "DC.SELLIB", .c, 0x11000000, 0xFFFFFF00⟩ (by decide) hd rfl ho
      (by rw [zero_c]; simp) (fun h => ?_)
    have h := eq_of_beq h
    exact pack_eq ho (z23_zero h (by omega) (by omega)) (extract_zero h (by omega) (by omega))
      (extract_zero h (by omega) (by omega)) rfl
  · refine fin ⟨0x12, "DC.SETMODE", .c, 0x12000000, 0xFFFFFF00⟩ (by decide) hd rfl ho
      (by rw [zero_c]; simp) (fun h => ?_)
    have h := eq_of_beq h
    exact pack_eq ho (z23_zero h (by omega) (by omega)) (extract_zero h (by omega) (by omega))
      (extract_zero h (by omega) (by omega)) rfl
  · refine fin ⟨0x13, "DC.SETWAVE", .bc, 0x13000000, 0xFFFF0000⟩ (by decide) hd rfl ho
      (by rw [zero_bc]; simp) (fun h => ?_)
    have h := eq_of_beq h
    exact pack_eq ho (z23_zero h (by omega) (by omega)) (extract_zero h (by omega) (by omega)) rfl rfl
  · exact fin ⟨0x14, "DC.GO", .z, 0x14000000, 0xFFFFFFFF⟩ (by decide) hd rfl ho
      (by rw [zero_z]; simp) (fun h => zz h _ ho)
  · exact fin ⟨0x15, "DC.RDSTATUS", .z, 0x15000000, 0xFFFFFFFF⟩ (by decide) hd rfl ho
      (by rw [zero_z]; simp) (fun h => zz h _ ho)
  · exact fin ⟨0x16, "DC.ISCONN", .z, 0x16000000, 0xFFFFFFFF⟩ (by decide) hd rfl ho
      (by rw [zero_z]; simp) (fun h => zz h _ ho)

end Sys2Proof
end

