-- ==== Sys2Proof/Laws/PerInstr.lean ====
section
/-! SUPPORT. Laws stated for each constructor of `Instr`.  The family `Legal`: the encoder's word is legal
(R82, R85), so no field of a command touches a must-be-zero bit of its format. -/

namespace Sys2Proof.Laws.Legal

/-- The command's word matches exactly one row of R82. -/
def Statement (i : Instr) : Prop := wordLegal (encode i) = true

/-- A packed word that a row of R82 asks zeros of and has them is legal: no other row has its operation
code. -/
theorem legal_of_zero {w : CommandWord} {r : OpcodeRow} (hr : r ∈ opcodeMap) (ho : fieldOpc w = r.opc)
    (hz : w &&& r.format.mustBeZero = 0) : wordLegal w = true := by
  rw [wordLegal_fields, ho]
  have key : ∀ r ∈ opcodeMap, ∀ q ∈ opcodeMap, r.opc = q.opc → q = r := by decide
  have hf : opcodeMap.filter (fun q => decide (r.opc = q.opc) && decide (w &&& q.format.mustBeZero = 0)) =
      opcodeMap.filter (fun q => decide (q = r)) := by
    refine List.filter_congr fun q hq => ?_
    by_cases h : r.opc = q.opc
    · have := key r hr q hq h
      subst this
      simp [hz]
    · have : ¬ q = r := fun e => h (by rw [e])
      simp [h, this]
  have one : ∀ r ∈ opcodeMap, (opcodeMap.filter (fun q => decide (q = r))).length = 1 := by decide
  rw [hf, one r hr]
  rfl

theorem beBegin : Statement .beBegin :=
  legal_of_zero (r := ⟨0x00, "BE.BEGIN", .z, 0x00000000, 0xFFFFFFFF⟩) (by decide) (by decide) (by decide)

theorem beSethp (us : HalfPeriod) : Statement (.beSethp us) := by
  refine legal_of_zero (r := ⟨0x01, "BE.SETHP", .i, 0x01000000, 0xFFFF0000⟩) (by decide)
    (fieldOpc_packWord ..) ((zero_i _).2 ?_)
  apply BitVec.eq_of_toNat_eq
  rw [extract_toNat, encode, packWord_toNat]
  simp; omega

theorem beProbe (addr : BusAddr) : Statement (.beProbe addr) := by
  refine legal_of_zero (r := ⟨0x02, "BE.PROBE", .a, 0x02000000, 0xFF80FFFF⟩) (by decide)
    (fieldOpc_packWord ..) ((zero_a _).2 ⟨fieldZ23_packWord .., ?_⟩)
  apply BitVec.eq_of_toNat_eq
  rw [extract_toNat, encode, packWord_toNat]
  simp

theorem beWr8 (addr : BusAddr) (reg val : Byte) : Statement (.beWr8 addr reg val) :=
  legal_of_zero (r := ⟨0x03, "BE.WR8", .abc, 0x03000000, 0xFF800000⟩) (by decide)
    (fieldOpc_packWord ..) ((zero_abc _).2 (fieldZ23_packWord ..))

theorem beRd8 (addr : BusAddr) (reg : Byte) (nd : Bool) : Statement (.beRd8 addr reg nd) := by
  refine legal_of_zero (r := ⟨0x04, "BE.RD8", .abn, 0x04000000, 0xFF8000FE⟩) (by decide)
    (fieldOpc_packWord ..) ((zero_abn _).2 ⟨fieldZ23_packWord .., ?_⟩)
  apply BitVec.eq_of_toNat_eq
  rw [extract_toNat, encode, packWord_toNat]
  cases nd <;> simp <;> omega

theorem dcBegin : Statement .dcBegin :=
  legal_of_zero (r := ⟨0x10, "DC.BEGIN", .z, 0x10000000, 0xFFFFFFFF⟩) (by decide) (by decide) (by decide)

theorem dcSellib (id : Byte) : Statement (.dcSellib id) := by
  refine legal_of_zero (r := ⟨0x11, "DC.SELLIB", .c, 0x11000000, 0xFFFFFF00⟩) (by decide)
    (fieldOpc_packWord ..) ((zero_c _).2 ?_)
  apply BitVec.eq_of_toNat_eq
  rw [extract_toNat, encode, packWord_toNat]
  simp; omega

theorem dcSetmode (mode : Byte) : Statement (.dcSetmode mode) := by
  refine legal_of_zero (r := ⟨0x12, "DC.SETMODE", .c, 0x12000000, 0xFFFFFF00⟩) (by decide)
    (fieldOpc_packWord ..) ((zero_c _).2 ?_)
  apply BitVec.eq_of_toNat_eq
  rw [extract_toNat, encode, packWord_toNat]
  simp; omega

theorem dcSetwave (slot effect : Byte) : Statement (.dcSetwave slot effect) := by
  refine legal_of_zero (r := ⟨0x13, "DC.SETWAVE", .bc, 0x13000000, 0xFFFF0000⟩) (by decide)
    (fieldOpc_packWord ..) ((zero_bc _).2 ?_)
  apply BitVec.eq_of_toNat_eq
  rw [extract_toNat, encode, packWord_toNat]
  simp; omega

theorem dcGo : Statement .dcGo :=
  legal_of_zero (r := ⟨0x14, "DC.GO", .z, 0x14000000, 0xFFFFFFFF⟩) (by decide) (by decide) (by decide)

theorem dcRdstatus : Statement .dcRdstatus :=
  legal_of_zero (r := ⟨0x15, "DC.RDSTATUS", .z, 0x15000000, 0xFFFFFFFF⟩) (by decide) (by decide) (by decide)

theorem dcIsconn : Statement .dcIsconn :=
  legal_of_zero (r := ⟨0x16, "DC.ISCONN", .z, 0x16000000, 0xFFFFFFFF⟩) (by decide) (by decide) (by decide)

end Sys2Proof.Laws.Legal
end

