-- ==== Sys2Proof/Laws/Same.lean ====
section
/-! SUPPORT. A sequence reads nothing that an earlier command left in the latches, `RESP` or the
temporaries (R27, R30): from two states that agree on the rest it runs alike. -/

namespace Sys2Proof.Machine

variable {α β : Type} {s t u v : State}

/-- The same block, and if `b` the same byte in `SH`. -/
def Alike (b : Bool) (s u : State) : Prop := SameBlock s u ∧ (b = true → s.sh = u.sh)

/-- From states alike by `b` the sequence ends alike by `c`, with the same value, the same trace and in
the same time, or hangs alike, and the block is still as busy as it was. -/
def Follows (b c : Bool) (x : Proc α) : Prop :=
  ∀ s u, Alike b s u →
    (∃ a t v, x s = .ok a t ∧ x u = .ok a v ∧ Alike c t v ∧ t.t + u.t = v.t + s.t ∧ t.busy = s.busy) ∨
      ∃ e t v, x s = .error e t ∧ x u = .error e v ∧ SameBlock t v ∧ t.t + u.t = v.t + s.t ∧ t.busy = s.busy

theorem follows_bind {b c d : Bool} {x : Proc α} {f : α → Proc β} (hx : Follows b c x)
    (hf : ∀ a, Follows c d (f a)) : Follows b d (x >>= f) := by
  intro s u h
  rcases hx s u h with ⟨a, t, v, h1, h2, h3, h4, h5⟩ | ⟨e, t, v, h1, h2, h3, h4, h5⟩
  · rw [bind_ok h1, bind_ok h2]
    rcases hf a t v h3 with ⟨a', t', v', g1, g2, g3, g4, g5⟩ | ⟨e, t', v', g1, g2, g3, g4, g5⟩
    · exact .inl ⟨a', t', v', g1, g2, g3, by omega, g5.trans h5⟩
    · exact .inr ⟨e, t', v', g1, g2, g3, by omega, g5.trans h5⟩
  · rw [bind_error h1, bind_error h2]
    exact .inr ⟨e, t, v, rfl, rfl, h3, h4, h5⟩

theorem follows_pure {b : Bool} (a : α) : Follows b b (pure a : Proc α) := fun _ _ h =>
  .inl ⟨a, _, _, rfl, rfl, h, Nat.add_comm .., rfl⟩

/-- What is asked of the end may be less, of the beginning more. -/
theorem Follows.weaken {b c b' c' : Bool} {x : Proc α} (h : Follows b c x) (hb : b = true → b' = true)
    (hc : c' = true → c = true) : Follows b' c' x := by
  intro s u k
  rcases h s u ⟨k.1, fun e => k.2 (hb e)⟩ with ⟨a, t, v, h1, h2, h3, h4⟩ | h
  · exact .inl ⟨a, t, v, h1, h2, ⟨h3.1, fun e => h3.2 (hc e)⟩, h4⟩
  · exact .inr h

/-- A step that always ends, given what it does to the two states. -/
theorem follows_of {b c : Bool} {x : Proc α} (f : State → α) (g : State → State)
    (hx : ∀ s, x s = .ok (f s) (g s)) (hb : ∀ s, (g s).busy = s.busy)
    (h : ∀ s u, Alike b s u → f s = f u ∧ Alike c (g s) (g u) ∧ (g s).t + u.t = (g u).t + s.t) :
    Follows b c x := by
  intro s u k
  obtain ⟨h1, h2, h3⟩ := h s u k
  exact .inl ⟨f s, g s, g u, hx s, h1 ▸ hx u, h2, h3, hb s⟩

theorem follows_sclHi {b : Bool} : Follows b b sclHi := by
  refine follows_of (fun _ => ()) _ (fun _ => rfl) (fun _ => rfl) ?_
  rintro s u ⟨⟨h1, h2, h3, h4, h5, h6, h7, h8, h9⟩, h⟩
  exact ⟨rfl, ⟨⟨h1, h2, h3, rfl, h5, h6, by simp [record, h7], h8, h9⟩, h⟩, by simp only [record]; omega⟩

theorem follows_sclLo {b : Bool} : Follows b b sclLo := by
  refine follows_of (fun _ => ()) _ (fun _ => rfl) (fun _ => rfl) ?_
  rintro s u ⟨⟨h1, h2, h3, h4, h5, h6, h7, h8, h9⟩, h⟩
  exact ⟨rfl, ⟨⟨h1, h2, h3, rfl, h5, h6, by simp [record, h7], h8, h9⟩, h⟩, by simp only [record]; omega⟩

theorem follows_sdaLo {b : Bool} : Follows b b sdaLo := by
  refine follows_of (fun _ => ()) _ (fun _ => rfl) (fun _ => rfl) ?_
  rintro s u ⟨⟨h1, h2, h3, h4, h5, h6, h7, h8, h9⟩, h⟩
  exact ⟨rfl, ⟨⟨h1, h2, h3, h4, rfl, h6, by simp [record, h7], h8, h9⟩, h⟩, by simp only [record]; omega⟩

theorem follows_sdaRel {b : Bool} : Follows b b sdaRel := by
  refine follows_of (fun _ => ()) _ (fun _ => rfl) (fun _ => rfl) ?_
  rintro s u ⟨⟨h1, h2, h3, h4, h5, h6, h7, h8, h9⟩, h⟩
  exact ⟨rfl, ⟨⟨h1, h2, h3, h4, rfl, h6, by simp [record, h7], h8, h9⟩, h⟩, by simp only [record]; omega⟩

theorem follows_wait {b : Bool} : Follows b b wait := by
  refine follows_of (fun _ => ()) _ (fun _ => rfl) (fun _ => rfl) ?_
  rintro s u ⟨⟨h1, h2, h3, h4, h5, h6, h7, h8, h9⟩, h⟩
  exact ⟨rfl, ⟨⟨h1, h2, h3, h4, h5, h6, by simp [record, h7], h8, h9⟩, h⟩,
    by simp only [record, h2]; omega⟩

theorem follows_putSh {b : Bool} (x : Byte) : Follows b true (putSh x) := by
  refine follows_of (fun _ => ()) _ (fun _ => rfl) (fun _ => rfl) ?_
  rintro s u ⟨⟨h1, h2, h3, h4, h5, h6, h7, h8, h9⟩, -⟩
  exact ⟨rfl, ⟨⟨h1, h2, h3, h4, h5, h6, h7, h8, h9⟩, fun _ => rfl⟩, Nat.add_comm ..⟩

theorem follows_getSh : Follows true true getSh :=
  follows_of (fun s => s.sh) _ (fun _ => rfl) (fun _ => rfl) fun _ _ h => ⟨h.2 rfl, h, Nat.add_comm ..⟩

theorem follows_putBiti {b : Bool} (i : Nat) : Follows b b (putBiti i) := by
  refine follows_of (fun _ => ()) _ (fun _ => rfl) (fun _ => rfl) ?_
  rintro s u ⟨⟨h1, h2, h3, h4, h5, h6, h7, h8, h9⟩, h⟩
  exact ⟨rfl, ⟨⟨h1, h2, h3, h4, h5, h6, h7, h8, h9⟩, h⟩, Nat.add_comm ..⟩

theorem follows_putAckf {b : Bool} (k : Bool) : Follows b b (putAckf k) := by
  refine follows_of (fun _ => ()) _ (fun _ => rfl) (fun _ => rfl) ?_
  rintro s u ⟨⟨h1, h2, h3, h4, h5, h6, h7, h8, h9⟩, h⟩
  exact ⟨rfl, ⟨⟨h1, h2, h3, h4, h5, h6, h7, h8, h9⟩, h⟩, Nat.add_comm ..⟩

theorem follows_slaveStart {b : Bool} : Follows b b slaveStart := by
  refine follows_of (fun _ => ()) _ (fun _ => rfl) (fun _ => rfl) ?_
  rintro s u ⟨⟨h1, h2, h3, h4, h5, h6, h7, h8, h9⟩, h⟩
  exact ⟨rfl, ⟨⟨h1, h2, h3, h4, h5, h6, h7, congrArg Slave.onStart h8, h9⟩, h⟩, Nat.add_comm ..⟩

theorem follows_slaveStop {b : Bool} : Follows b b slaveStop := by
  refine follows_of (fun _ => ()) _ (fun _ => rfl) (fun _ => rfl) ?_
  rintro s u ⟨⟨h1, h2, h3, h4, h5, h6, h7, h8, h9⟩, h⟩
  exact ⟨rfl, ⟨⟨h1, h2, h3, h4, h5, h6, h7, congrArg Slave.onStop h8, h9⟩, h⟩, Nat.add_comm ..⟩

theorem follows_smp {b : Bool} (q : Query) : Follows b b (smp q) := by
  rintro s u ⟨⟨h1, h2, h3, h4, h5, h6, h7, h8, h9⟩, h⟩
  have hh : sampleHangs s = sampleHangs u := by simp [sampleHangs, h1, h9]
  have hl : sampleLevel s = sampleLevel u := by funext x; simp [sampleLevel, sdaWire, h5]
  have hc : countSample s = countSample u := by simp [countSample, h1, h9]
  unfold smp
  rw [← hh]
  split
  · exact .inr ⟨_, _, _, rfl, rfl, ⟨h1, h2, h3, h4, h5, h6, h7, h8, h9⟩, Nat.add_comm .., rfl⟩
  · rw [← h7, ← h8, ← hl]
    exact .inl ⟨_, _, _, rfl, rfl, ⟨⟨h1, h2, h3, h4, h5, h6, rfl, rfl, hc⟩, h⟩, Nat.add_comm .., rfl⟩

theorem follows_start {b : Bool} : Follows b b start :=
  follows_bind follows_sdaRel fun _ => follows_bind follows_sclHi fun _ => follows_bind follows_sdaLo fun _ =>
    follows_bind follows_wait fun _ => follows_bind follows_sclLo fun _ => follows_slaveStart

theorem follows_stop {b : Bool} : Follows b b stop :=
  follows_bind follows_sdaLo fun _ => follows_bind follows_wait fun _ => follows_bind follows_sclHi fun _ =>
    follows_bind follows_sdaRel fun _ => follows_bind follows_wait fun _ => follows_slaveStop

theorem follows_ite {b c : Bool} {p : Prop} [Decidable p] {x y : Proc α} (hx : Follows b c x)
    (hy : Follows b c y) : Follows b c (if p then x else y) := by
  split
  · exact hx
  · exact hy

theorem follows_writeCells (is : List Nat) : Follows true true (writeCells is) := by
  induction is with
  | nil => exact follows_pure _
  | cons i is ih =>
    refine follows_bind ?_ fun _ => ih
    exact follows_bind (follows_putBiti i) fun _ =>
      follows_bind (follows_bind follows_getSh fun _ => follows_ite follows_sdaRel follows_sdaLo) fun _ =>
        follows_bind follows_wait fun _ => follows_bind follows_sclHi fun _ =>
          follows_bind follows_wait fun _ => follows_sclLo

theorem follows_wbyte {b : Bool} (x : Byte) : Follows b true (wbyte x) :=
  follows_bind (follows_putSh x) fun _ => follows_bind (follows_writeCells bitOrder) fun _ =>
    follows_bind follows_sdaRel fun _ => follows_bind follows_wait fun _ => follows_bind follows_sclHi fun _ =>
      follows_bind follows_wait fun _ => follows_bind (follows_smp _) fun _ =>
        follows_bind follows_sclLo fun _ => follows_bind (follows_putAckf _) fun _ => follows_pure _

theorem follows_readCells (is : List Nat) : Follows true true (readCells is) := by
  induction is with
  | nil => exact follows_pure _
  | cons i is ih =>
    refine follows_bind ?_ fun _ => ih
    exact follows_bind (follows_putBiti i) fun _ => follows_bind follows_wait fun _ =>
      follows_bind follows_sclHi fun _ => follows_bind follows_wait fun _ =>
        follows_bind (follows_smp _) fun _ => follows_bind follows_getSh fun _ =>
          follows_bind (follows_putSh _) fun _ => follows_sclLo

theorem follows_masterAckCell {b : Bool} (k : Bool) : Follows b b (masterAckCell k) := by
  cases k
  · exact follows_bind follows_sdaRel fun _ => follows_bind follows_wait fun _ =>
      follows_bind follows_sclHi fun _ => follows_bind follows_wait fun _ =>
        follows_bind follows_sclLo fun _ => follows_sdaRel
  · exact follows_bind follows_sdaLo fun _ => follows_bind follows_wait fun _ =>
      follows_bind follows_sclHi fun _ => follows_bind follows_wait fun _ =>
        follows_bind follows_sclLo fun _ => follows_sdaRel

theorem follows_rbyte {b : Bool} (k : Bool) : Follows b true (rbyte k) :=
  follows_bind follows_sdaRel fun _ => follows_bind (follows_putSh _) fun _ =>
    follows_bind (follows_readCells bitOrder) fun _ =>
      follows_bind (follows_masterAckCell k) fun _ => follows_getSh

theorem follows_end {b : Bool} {x : Proc α} (h : Follows b true x) : Follows b false x :=
  h.weaken id fun e => by cases e

theorem follows_abort {why : Cause} : Follows true false (abort why : Proc (Except Cause α)) :=
  follows_end (follows_bind follows_stop fun _ => follows_pure _)

theorem follows_probe (addr : BusAddr) : Follows false false (probe addr) :=
  follows_bind follows_start fun _ => follows_bind (follows_wbyte _) fun _ =>
    follows_end (follows_bind follows_stop fun _ => follows_pure _)

theorem follows_writeRegister (addr : BusAddr) (reg val : Byte) :
    Follows false false (writeRegister addr reg val) :=
  follows_bind follows_start fun _ => follows_bind (follows_wbyte _) fun _ =>
    follows_ite (follows_bind (follows_wbyte _) fun _ =>
      follows_ite (follows_bind (follows_wbyte _) fun _ =>
        follows_ite (follows_end (follows_bind follows_stop fun _ => follows_pure _)) follows_abort)
        follows_abort) follows_abort

theorem follows_readRegister (addr : BusAddr) (reg : Byte) : Follows false false (readRegister addr reg) :=
  follows_bind follows_start fun _ => follows_bind (follows_wbyte _) fun _ =>
    follows_ite (follows_bind (follows_wbyte _) fun _ =>
      follows_ite (follows_bind follows_start fun _ => follows_bind (follows_wbyte _) fun _ =>
        follows_ite (follows_bind (follows_rbyte _) fun _ =>
          follows_end (follows_bind follows_stop fun _ => follows_pure _)) follows_abort)
        follows_abort) follows_abort

theorem follows_wrDiscard (p : Params) (r v : Byte) : Follows false false (wrDiscard p r v) :=
  follows_bind (follows_writeRegister _ _ _) fun _ => follows_pure _

theorem follows_wrEach (p : Params) (ws : List (Byte × Byte)) : Follows false false (wrEach p ws) := by
  induction ws with
  | nil => exact follows_pure _
  | cons w ws ih => exact follows_bind (follows_wrDiscard _ _ _) fun _ => ih

theorem follows_rewrite (p : Params) (r m : Byte) (set : Bool) : Follows false false (rewrite p r m set) := by
  refine follows_bind (follows_readRegister _ _) fun x => ?_
  cases x with
  | ok f => exact follows_wrDiscard _ _ _
  | error _ => exact follows_pure _

theorem follows_initialise (p : Params) : Follows false false (initialise p) := by
  refine follows_bind (follows_writeRegister _ _ _) fun x => ?_
  cases x with
  | error why => exact follows_pure _
  | ok _ =>
    exact follows_bind (follows_bind (follows_wrEach _ _) fun _ =>
      follows_bind (follows_rewrite _ _ _ _) fun _ => follows_rewrite _ _ _ _) fun _ => follows_pure _

/-! ### Commands -/

theorem sameBlock_refl (s : State) : SameBlock s s := ⟨rfl, rfl, rfl, rfl, rfl, rfl, rfl, rfl, rfl⟩

theorem sameBlock_accept (h : SameBlock s u) (w w' : CommandWord) : SameBlock (accept w s) (accept w' u) :=
  ⟨h.par, h.hp, h.sclm, h.sclo, h.sdam, rfl, h.tr, h.slave, h.hangAfter⟩

/-- Two outcomes of commands from two states: refused alike, or the same block in the same time, with
answers that `ans` relates if they completed. -/
def OutcomesAlike (ans : Resp → Resp → Prop) (r r' : Result) (s u : State) : Prop :=
  (∃ e, r = .refused e ∧ r' = .refused e) ∨
    ∃ t v, r = .next t ∧ r' = .next v ∧ SameBlock t v ∧ t.t + u.t = v.t + s.t ∧
      (s.busy = false → t.busy = false → ans t.resp v.resp)

theorem runCommand_alike {x : Proc α} (hx : Follows false false x) {f g : α → Resp}
    {ans : Resp → Resp → Prop} (hf : ∀ a, ans (f a) (g a)) {w w' : CommandWord} (h : SameBlock s u) :
    OutcomesAlike ans (runCommand w (do let a ← x; return f a) s)
      (runCommand w' (do let a ← x; return g a) u) s u := by
  unfold runCommand
  cases hb : s.busy with
  | true => rw [← h.busy, hb]; exact .inr ⟨s, u, rfl, rfl, h, Nat.add_comm .., by simp [hb]⟩
  | false =>
    rw [← h.busy, hb]
    rcases hx _ _ ⟨sameBlock_accept h w w', fun e => by cases e⟩ with
      ⟨a, t, v, h1, h2, h3, h4, -⟩ | ⟨e, t, v, h1, h2, h3, h4, h5⟩
    · rw [bind_ok h1, bind_ok h2]
      obtain ⟨⟨k1, k2, k3, k4, k5, k6, k7, k8, k9⟩, -⟩ := h3
      exact .inr ⟨_, _, rfl, rfl, ⟨k1, k2, k3, k4, k5, rfl, k7, k8, k9⟩, h4, fun _ _ => hf a⟩
    · rw [bind_error h1, bind_error h2]
      refine .inr ⟨_, _, rfl, rfl, h3, h4, fun _ h => ?_⟩
      rw [h5] at h
      cases h

theorem runTransfer_alike {x : Proc α} (hx : Follows false false x) {f g : α → Resp}
    {ans : Resp → Resp → Prop} (hf : ∀ a, ans (f a) (g a)) {w w' : CommandWord} (h : SameBlock s u) :
    OutcomesAlike ans (runTransfer w (do let a ← x; return f a) s)
      (runTransfer w' (do let a ← x; return g a) u) s u := by
  have hl : linesIdle s = linesIdle u := by simp [linesIdle, h.sclm, h.sclo, h.sdam]
  cases h1 : linesIdle s with
  | true => rw [runTransfer_ready h1, runTransfer_ready (hl ▸ h1)]; exact runCommand_alike hx hf h
  | false =>
    cases hb : s.busy with
    | true =>
      rw [runTransfer_busy hb, runTransfer_busy (h.busy ▸ hb)]
      exact .inr ⟨s, u, rfl, rfl, h, Nat.add_comm .., by simp [hb]⟩
    | false =>
      rw [runTransfer_notBegun hb h1, runTransfer_notBegun (h.busy ▸ hb) (hl ▸ h1)]
      exact .inl ⟨_, rfl, rfl⟩

end Sys2Proof.Machine
end

