-- ==== Sys2Proof/Laws/Trace.lean ====
section
/-! SUPPORT. What the line observer sees of the bytes and the conditions (R13, R87 to R90). -/

namespace Sys2Proof.Machine

/-- The observer after a trace. -/
def Watch.after (o : Watch) (ops : List MicroOp) : Watch := ops.foldl (fun o op => (o.see op).1) o

theorem after_append (o : Watch) (x y : List MicroOp) : o.after (x ++ y) = (o.after x).after y := by
  simp [Watch.after]

theorem events_append (o : Watch) (x y : List MicroOp) :
    o.events (x ++ y) = o.events x ++ (o.after x).events y := by
  unfold Watch.after
  induction x generalizing o with
  | nil => rfl
  | cons op x ih => simp [Watch.events, ih]

theorem samplesReleased_append (o : Watch) (x y : List MicroOp) :
    samplesReleased o (x ++ y) ↔ samplesReleased o x ∧ samplesReleased (o.after x) y := by
  unfold Watch.after
  induction x generalizing o with
  | nil => simp [samplesReleased]
  | cons op x ih => simp [samplesReleased, ih, and_assoc]

/-- From `o`, the observer sees `es` along `ops` and becomes `p`, with every sample on a released line
while the clock is high. -/
def Seen (o : Watch) (ops : List MicroOp) (es : List BusEvent) (p : Watch) : Prop :=
  o.events ops = es ∧ o.after ops = p ∧ samplesReleased o ops

theorem Seen.append {o p q : Watch} {x y : List MicroOp} {es fs : List BusEvent} (h : Seen o x es p)
    (k : Seen p y fs q) : Seen o (x ++ y) (es ++ fs) q := by
  obtain ⟨h1, h2, h3⟩ := h
  obtain ⟨k1, k2, k3⟩ := k
  exact ⟨by rw [events_append, h1, h2, k1], by rw [after_append, h2, k2],
    by rw [samplesReleased_append, h2]; exact ⟨h3, k3⟩⟩

/-- Only the ninth cell completes a byte (R8). -/
theorem byteEvent_none (x : Cell) (cs : List Cell) (h : cs.length ≠ 8) : byteEvent (x :: cs) = none := by
  unfold byteEvent
  split
  · rename_i _ _ _ e
    cases e
    split
    · simp_all
    · rfl
  · rfl

theorem byteOfBits_bits (b : Byte) :
    byteOfBits [b.getLsbD 0, b.getLsbD 1, b.getLsbD 2, b.getLsbD 3, b.getLsbD 4, b.getLsbD 5, b.getLsbD 6,
      b.getLsbD 7] = b := by
  revert b
  decide +kernel

theorem seen_writeCell (b : Byte) (i : Nat) (low : Bool) (seen : Option Bool) (cs : List Cell)
    (h : cs.length ≠ 8) :
    Seen ⟨false, low, seen, false, cs⟩ (writeCellOps b i) []
      ⟨false, !b.getLsbD i, none, false, ⟨b.getLsbD i, false⟩ :: cs⟩ := by
  unfold Seen Watch.after writeCellOps bitOp
  cases hb : b.getLsbD i <;> simp [Watch.events, Watch.see, samplesReleased, byteEvent_none _ cs h]

theorem seen_writeCells (b : Byte) (is : List Nat) (low : Bool) (seen : Option Bool) (cs : List Cell)
    (h : is.length + cs.length ≤ 8) :
    ∃ low' seen', Seen ⟨false, low, seen, false, cs⟩ (is.flatMap (writeCellOps b)) []
      ⟨false, low', seen', false, is.reverse.map (fun i => ⟨b.getLsbD i, false⟩) ++ cs⟩ := by
  induction is generalizing low seen cs with
  | nil => exact ⟨low, seen, rfl, rfl, trivial⟩
  | cons i is ih =>
    simp only [List.length_cons] at h
    obtain ⟨l, s, hs⟩ := ih (!b.getLsbD i) none (⟨b.getLsbD i, false⟩ :: cs)
      (by simp only [List.length_cons]; omega)
    exact ⟨l, s, by simpa using (seen_writeCell b i low seen cs (by omega)).append hs⟩

/-- A written byte, and what it leaves the observer with: the clock low, the line released (R129). -/
theorem seen_wbyte (b : Byte) (level low : Bool) (seen : Option Bool) :
    Seen ⟨false, low, seen, false, []⟩ (wbyteOps b level) [.wrote b (!level)]
      ⟨false, false, some level, false, []⟩ := by
  obtain ⟨low', seen', h⟩ := seen_writeCells b bitOrder low seen [] (by decide)
  have k : Seen ⟨false, low', seen', false, bitOrder.reverse.map (fun i => ⟨b.getLsbD i, false⟩) ++ []⟩
      (ackCellOps level) [.wrote b (!level)] ⟨false, false, some level, false, []⟩ := by
    have hb := byteOfBits_bits b
    unfold Seen Watch.after ackCellOps
    simp [Watch.events, Watch.see, samplesReleased, byteEvent, bitOrder] at hb ⊢
    exact hb
  exact h.append k

theorem seen_readCell (d : Byte) (i : Nat) (seen : Option Bool) (cs : List Cell) (h : cs.length ≠ 8) :
    Seen ⟨false, false, seen, false, cs⟩ (readCellOps d i) []
      ⟨false, false, some (d.getLsbD i), false, ⟨d.getLsbD i, true⟩ :: cs⟩ := by
  unfold Seen Watch.after readCellOps
  simp [Watch.events, Watch.see, samplesReleased, byteEvent_none _ cs h]

theorem seen_readCells (d : Byte) (is : List Nat) (seen : Option Bool) (cs : List Cell)
    (h : is.length + cs.length ≤ 8) :
    ∃ seen', Seen ⟨false, false, seen, false, cs⟩ (is.flatMap (readCellOps d)) []
      ⟨false, false, seen', false, is.reverse.map (fun i => ⟨d.getLsbD i, true⟩) ++ cs⟩ := by
  induction is generalizing seen cs with
  | nil => exact ⟨seen, rfl, rfl, trivial⟩
  | cons i is ih =>
    simp only [List.length_cons] at h
    obtain ⟨s, hs⟩ := ih (some (d.getLsbD i)) (⟨d.getLsbD i, true⟩ :: cs)
      (by simp only [List.length_cons]; omega)
    exact ⟨s, by simpa using (seen_readCell d i seen cs (by omega)).append hs⟩

/-- A byte read, with the acknowledgement the master sent (R130). -/
theorem seen_rbyte (sendAck : Bool) (d : Byte) (low : Bool) (seen : Option Bool) :
    Seen ⟨false, low, seen, false, []⟩ (rbyteOps sendAck d) [.read d sendAck]
      ⟨false, false, none, false, []⟩ := by
  obtain ⟨seen', h⟩ := seen_readCells d bitOrder seen [] (by decide)
  have h0 : Seen ⟨false, low, seen, false, []⟩ [.sdaRel] [] ⟨false, false, seen, false, []⟩ := by
    unfold Seen Watch.after
    simp [Watch.events, Watch.see, samplesReleased]
  have k : Seen ⟨false, false, seen', false, bitOrder.reverse.map (fun i => ⟨d.getLsbD i, true⟩) ++ []⟩
      (masterAckOps sendAck) [.read d sendAck] ⟨false, false, none, false, []⟩ := by
    have hb := byteOfBits_bits d
    unfold Seen Watch.after masterAckOps
    cases sendAck <;>
      simp [Watch.events, Watch.see, samplesReleased, byteEvent, bitOrder] at hb ⊢ <;> exact hb
  exact (h0.append h).append k

/-- The first start condition of a frame (R127). -/
theorem seen_start (seen : Option Bool) (pulse : Bool) :
    Seen ⟨true, false, seen, pulse, []⟩ startOps [.start] ⟨false, true, seen, false, []⟩ := by
  unfold Seen Watch.after
  simp [Watch.events, Watch.see, samplesReleased, startOps]

/-- A repeated start condition (R133). -/
theorem seen_repeatedStart (seen : Option Bool) (low : Bool) :
    Seen ⟨false, low, seen, false, []⟩ startOps [.start] ⟨false, true, none, false, []⟩ := by
  unfold Seen Watch.after
  simp [Watch.events, Watch.see, samplesReleased, startOps]

/-- The stop condition (R128) leaves the observer on idle lines. -/
theorem seen_stop (seen : Option Bool) (low : Bool) :
    Seen ⟨false, low, seen, false, []⟩ stopOps [.stop] Watch.idle := by
  unfold Seen Watch.after Watch.idle
  simp [Watch.events, Watch.see, samplesReleased, stopOps]

end Sys2Proof.Machine
end

