-- ==== Sys2Proof/Tests/Slice0.lean ====
section
/-! SUPPORT. The model's own tests, with the results that 95_test_vectors.md gives, and for each statement
with hypotheses a witness that meets them. -/

namespace Sys2Proof.Tests

open Sys2Proof.Machine

/-! ### States the tests start from -/

/-- The parameters of 95_test_vectors.md's notation paragraph, with the stall model given. -/
def parameters (stall : StallModel) : Params :=
  ⟨0, 1, 5, 0x5A, .ermOpen, ⟨7, false, 5, true⟩, ⟨7, true, 0, false⟩, 0x01, 0x64, stall⟩

/-- Right after reset, on an absent slave. -/
def fresh (slave : Slave) : State := State.construct (parameters .none) slave none

/-- After `BE.BEGIN`: idle, with the lines idle. -/
def ready (slave : Slave) : State := { fresh slave with sclm := .out, sclo := true, sdam := .rel }

/-- The same, in a model in which the sample after `n` more never completes. -/
def mayHang (n : Nat) : State :=
  { State.construct (parameters .sampleMayHang) (.oracle [false, false, false]) (some n) with
    sclm := .out, sclo := true, sdam := .rel }

/-- A block that hangs in a sample. -/
def hung : State := { mayHang 0 with busy := true, upc := 49 }

/-- The reference slave of V30. -/
def device : RefSlave := { RefSlave.default with rf := [(0x00, 0xE0), (0x1A, 0xB6), (0x1D, 0x80)] }

/-- No device: every sample answers 1. -/
def absent : Slave := .reference { RefSlave.default with present := false }

/-- The command answers a next state with this property. -/
def yields (i : Instr) (s : State) (p : State → Bool) : Bool :=
  match exec i s with
  | .next t => p t
  | _ => false

/-- The next state of a command. -/
theorem next_of_yields {i : Instr} {s : State} {p : State → Bool} (h : yields i s p = true) :
    ∃ t, exec i s = .next t ∧ p t = true := by
  unfold yields at h
  split at h
  · exact ⟨_, by assumption, h⟩
  · cases h

/-- The response word, the byte trace, the elapsed time and the number of micro-ops of a completed
command. -/
def shows (word : ResponseWord) (events : List BusEvent) (time ops : Nat) (t : State) : Bool :=
  responseWord t.resp == word && busEvents (trace t) == events && t.t == time && t.tr.length == ops &&
    !t.busy && linesIdle t

/-- Register `reg` of the reference slave. -/
def register (reg : Byte) (t : State) : Option Byte :=
  match t.slave with
  | .oracle _ => none
  | .reference r => some (r.rf.read reg)

/-- `S Waa/A Wrr/A Wvv/A P` to `0x5A`. -/
def written (reg val : Byte) : List BusEvent :=
  [.start, .wrote 0xB4 true, .wrote reg true, .wrote val true, .stop]

/-- `S WB4/A Wrr/A S WB5/A Rdd/N P`. -/
def wasRead (reg d : Byte) : List BusEvent :=
  [.start, .wrote 0xB4 true, .wrote reg true, .start, .wrote 0xB5 true, .read d false, .stop]

/-- `S WB4/N P`. -/
def unheard : List BusEvent := [.start, .wrote 0xB4 false, .stop]

/-! ### WellFormed: words the checks refuse (V29), and each row of R82 alone -/

theorem test_wellformed_unknown_opcode :
    [0x05000000, 0x0F000000, 0x17000000, 0xFF000000].map (fun w => (opcodeListed w, wordLegal w)) =
      List.replicate 4 (false, false) := by decide

theorem test_wellformed_reserved_bits_engine :
    [0x00000001, 0x01010005, 0x02DA0000, 0x02800000, 0x025A0001, 0x03DA0C01, 0x045A0002].map
        (fun w => (opcodeListed w, reservedBitsZero w, wordLegal w)) =
      List.replicate 7 (true, false, false) := by decide

theorem test_wellformed_reserved_bits_controller :
    [0x10000001, 0x11000100, 0x12000100, 0x13010001, 0x14000001, 0x15000001, 0x16800000].map
        (fun w => (opcodeListed w, reservedBitsZero w, wordLegal w)) =
      List.replicate 7 (true, false, false) := by decide

theorem test_wellformed_rows_disjoint :
    opcodeMap.Pairwise fun r q => (r.pattern ^^^ q.pattern) &&& (r.mask &&& q.mask) ≠ 0 := by decide

theorem test_wellformed_mask_covers_match : ∀ r ∈ opcodeMap, r.pattern &&& ~~~r.mask = 0 := by decide

/-! ### Decoding: a word of each command, written out from its fields (R81, R82) -/

theorem test_decode_beBegin : decode 0b00000000_0_0000000_00000000_00000000 = .ok .beBegin := by decide

theorem test_decode_beSethp : decode 0b00000001_0_0000000_00000001_00000010 = .ok (.beSethp 0x0102) := by
  decide

theorem test_decode_beProbe : decode 0b00000010_0_1011010_00000000_00000000 = .ok (.beProbe 0x5A) := by
  decide

theorem test_decode_beWr8 :
    decode 0b00000011_0_1011010_00001100_00000001 = .ok (.beWr8 0x5A 0x0C 0x01) := by decide

theorem test_decode_beRd8 :
    decode 0b00000100_0_1011010_00011010_00000000 = .ok (.beRd8 0x5A 0x1A false) := by decide

theorem test_decode_beRd8_nd :
    decode 0b00000100_0_1011010_00011010_00000001 = .ok (.beRd8 0x5A 0x1A true) := by decide

theorem test_decode_dcBegin : decode 0b00010000_0_0000000_00000000_00000000 = .ok .dcBegin := by decide

theorem test_decode_dcSellib : decode 0b00010001_0_0000000_00000000_11111111 = .ok (.dcSellib 0xFF) := by
  decide

theorem test_decode_dcSetmode : decode 0b00010010_0_0000000_00000000_00000111 = .ok (.dcSetmode 0x07) := by
  decide

theorem test_decode_dcSetwave :
    decode 0b00010011_0_0000000_11111111_00000001 = .ok (.dcSetwave 0xFF 0x01) := by decide

theorem test_decode_dcGo : decode 0b00010100_0_0000000_00000000_00000000 = .ok .dcGo := by decide

theorem test_decode_dcRdstatus : decode 0b00010101_0_0000000_00000000_00000000 = .ok .dcRdstatus := by
  decide

theorem test_decode_dcIsconn : decode 0b00010110_0_0000000_00000000_00000000 = .ok .dcIsconn := by decide

theorem test_decode_rejects :
    decode 0x05000000 = .error .unknownOpcode ∧ decode 0x02DA0000 = .error .reservedBits ∧
      decode 0x045A0002 = .error .reservedBits := by decide

theorem test_encode_spelling :
    encode (.beWr8 0x5A 0x0C 0x01) = 0x035A0C01 ∧ encode (.dcSetwave 7 0x2F) = 0x1300072F ∧
      (Instr.beRd8 0x5A 0 true).spelling = "BE.RD8.ND" := by decide

/-! ### Arithmetic (V30c, R92, R93) -/

theorem test_force :
    force 0xB6 0x80 false = 0x36 ∧ force 0x36 0x80 true = 0xB6 ∧ force 0x80 0x20 true = 0xA0 ∧
      force 0xA1 0x01 false = 0xA0 ∧ force 0x00 0x20 true = 0x20 ∧ force 0xFF 0x80 false = 0x7F := by
  decide

theorem test_wave_register : waveRegister 0 = regWaveseq1 ∧ waveRegister 7 = regWaveseq8 := by decide

theorem test_masks :
    fbMask (parameters .none) = 0x80 ∧ fbSet (parameters .none) = false ∧
      c3Mask (parameters .none) = 0x20 ∧ c3Set (parameters .none) = true := by decide

/-! ### Commands: one or two vectors each -/

/-- V11. -/
theorem test_beBegin :
    yields .beBegin (fresh absent)
      (fun t => trace t == [.sclHi, .sdaRel] && t.t == 0 && responseWord t.resp == 0x0100 && linesIdle t &&
        t.hp == 5) = true := by decide

/-- V12 (a), (d), (f). -/
theorem test_beSethp :
    yields (.beSethp 7) (fresh absent)
      (fun t => t.hp == 7 && t.tr == [] && t.t == 0 && t.sclm == .unconf && responseWord t.resp == 0x0100) =
        true := by decide

/-- V12 (e), V13 (a). -/
theorem test_beProbe :
    yields (.beProbe 0x5A) { ready (.reference device) with hp := 65535 }
      (shows 0x0100 [.start, .wrote 0xB4 true, .stop] 1376235 56) = true := by decide +kernel

/-- V13 (c). -/
theorem test_beProbe_other_address :
    yields (.beProbe 0x5B) (ready (.reference device))
      (shows 0x0000 [.start, .wrote 0xB6 false, .stop] 105 56) = true := by decide +kernel

/-- V14. -/
theorem test_beWr8 :
    yields (.beWr8 0x5A 0x0C 0x01) (ready (.reference device))
      (fun t => shows 0x0100 (written 0x0C 0x01) 285 148 t && register 0x0C t == some 0x01) = true := by
  decide +kernel

/-- V16. -/
theorem test_beWr8_nackReg :
    yields (.beWr8 0x5A 0x0C 0x01) (ready (.oracle [false, true]))
      (shows 0x0000 [.start, .wrote 0xB4 true, .wrote 0x0C false, .stop] 195 102) = true := by
  decide +kernel

/-- V20. -/
theorem test_beRd8 :
    yields (.beRd8 0x5A 0x00 false) (ready (.reference device))
      (shows 0x01E0 (wasRead 0x00 0xE0) 380 200) = true := by decide +kernel

/-- V23. -/
theorem test_beRd8_nackAddrR :
    yields (.beRd8 0x5A 0x00 false) (ready (.oracle [false, false, true]))
      (shows 0x0000 [.start, .wrote 0xB4 true, .wrote 0x00 true, .start, .wrote 0xB5 false, .stop] 290 153) =
        true := by decide +kernel

/-- V30: the thirteen transactions and the registers they leave. -/
theorem test_dcBegin :
    yields .dcBegin (ready (.reference device))
      (fun t =>
        shows 0x0100
          (written 0x01 0x00 ++ written 0x02 0x00 ++ written 0x04 0x01 ++ written 0x05 0x00 ++
            written 0x0D 0x00 ++ written 0x0E 0x00 ++ written 0x0F 0x00 ++ written 0x10 0x00 ++
            written 0x13 0x64 ++ wasRead 0x1A 0xB6 ++ written 0x1A 0x36 ++ wasRead 0x1D 0x80 ++
            written 0x1D 0xA0) 3895 2028 t &&
          waits t.tr == 779 && samples t.tr == 55 &&
          [0x00, 0x04, 0x13, 0x1A, 0x1D].map (fun q => register q t) ==
            [some 0xE0, some 0x01, some 0x64, some 0x36, some 0xA0]) = true := by decide +kernel

/-- V33 (a): only the first transaction is acknowledged, and the answer is success. -/
theorem test_dcBegin_best_effort :
    yields .dcBegin (ready (.oracle ([false, false, false] ++ List.replicate 10 true)))
      (shows 0x0100 (written 0x01 0x00 ++ (List.replicate 10 unheard).flatten) 1335 708) = true := by
  decide +kernel

/-- V38. -/
theorem test_dcSellib :
    yields (.dcSellib 0xFF) (ready (.reference device))
      (fun t => shows 0x0100 (written 0x03 0xFF) 285 148 t && register 0x03 t == some 0xFF) = true := by
  decide +kernel

/-- V39. -/
theorem test_dcSetmode :
    yields (.dcSetmode 0x05) (ready (.reference device))
      (fun t => shows 0x0100 (written 0x01 0x05) 285 148 t && register 0x01 t == some 0x05) = true := by
  decide +kernel

/-- V35. -/
theorem test_dcSetwave :
    yields (.dcSetwave 7 0x2F) (ready (.reference device))
      (fun t => shows 0x0100 (written 0x0B 0x2F) 285 148 t && register 0x0B t == some 0x2F) = true := by
  decide +kernel

/-- V36, and R166: before `BE.BEGIN` too. -/
theorem test_dcSetwave_no_op :
    yields (.dcSetwave 8 1) (fresh absent)
      (fun t => t.tr == [] && t.t == 0 && responseWord t.resp == 0x0100) = true := by decide

/-- V40 with the absent slave. -/
theorem test_dcGo_absent : yields .dcGo (ready absent) (shows 0x0100 unheard 105 56) = true := by
  decide +kernel

/-- V40 with the reference slave. -/
theorem test_dcGo :
    yields .dcGo (ready (.reference device))
      (fun t => shows 0x0100 (written 0x0C 0x01) 285 148 t && register 0x0C t == some 0x01) = true := by
  decide +kernel

/-- V41. -/
theorem test_dcRdstatus :
    yields .dcRdstatus (ready (.reference device)) (shows 0x01E0 (wasRead 0x00 0xE0) 380 200) = true := by
  decide +kernel

/-- V42. -/
theorem test_dcIsconn :
    yields .dcIsconn (ready (.reference device)) (shows 0x0100 [.start, .wrote 0xB4 true, .stop] 105 56) =
      true := by decide +kernel

/-- V43, V44. -/
theorem test_refusals :
    exec (.beProbe 0x5A) (fresh absent) = .refused .notBegun ∧
      exec .beBegin (ready absent) = .refused .begunTwice := ⟨rfl, rfl⟩

/-- V25 before `BE.BEGIN` (R166). -/
theorem test_null_destination :
    yields (.beRd8 0x5A 0x00 true) (fresh absent)
      (fun t => t.tr == [] && t.t == 0 && responseWord t.resp == 0x0000 && t.slave == absent) = true := by
  decide

/-- V18: a write to a read-only register is sent all the same and changes nothing in the slave. -/
theorem test_read_only_register :
    yields (.beWr8 0x5A 0x00 0x55) (ready (.reference device))
      (fun t => shows 0x0100 (written 0x00 0x55) 285 148 t && register 0x00 t == some 0xE0) = true := by
  decide +kernel

/-- R164: with the first sample hanging, a probe stops before micro-op 49, busy, on a released line under
a high clock, with `RESP` unwritten. -/
theorem test_stall :
    yields (.beProbe 0x5A) (mayHang 0)
      (fun t => t.busy && t.upc == 49 && t.sclo && t.sdam == .rel && t.resp == (mayHang 0).resp) = true := by
  decide +kernel

/-- The third sample hangs: two bytes have been acknowledged. -/
theorem test_stall_later :
    yields (.beWr8 0x5A 0x0C 0x01) (mayHang 2)
      (fun t => t.busy && t.upc == 141 && samples t.tr == 2 && t.ackf) = true := by decide +kernel

/-- V9: `RBYTE(true)` with the samples of `0xA5`. -/
theorem test_rbyte_sendAck :
    (match rbyte true { ready (.oracle (wireBits 0xA5)) with sclo := false } with
      | .ok d t => d == 0xA5 && (trace t).drop 41 == [.sdaLo, .wait, .sclHi, .wait, .sclLo, .sdaRel]
      | .error _ _ => false) = true := by decide +kernel

/-- V29: an illegal word is answered, not executed. -/
theorem test_step_illegal_word :
    step { ready absent with offered := [0x05000000], resp := ⟨true, 0x12⟩ } =
      .next { ready absent with offered := [], resp := ⟨false, 0x00⟩ } := rfl

/-- The host's words are taken in order (R59): a legal one runs. -/
theorem test_step_legal_word :
    step { fresh absent with offered := [0x01000007, 0x00000000] } =
      .next
        { fresh absent with
          offered := [0x00000000], hp := 7, opc := 0x01, c := 0x07, resp := ⟨true, 0x00⟩ } := rfl

/-- The first instruction after reset, as the host asks for it. -/
theorem test_withFetchWord :
    step ((fresh absent).withFetchWord 32 0x01000007) = exec (.beSethp 7) (fresh absent) := rfl

theorem test_decodeTableWord :
    decodeTableWord 32 0x035A0C01 = some (.beWr8 0x5A 0x0C 0x01) ∧ decodeTableWord 32 0x05000000 = none := by
  decide

/-! ### Memory: the canonical form (R62) -/

theorem test_memory_canonical :
    (Memory.write [(1, 5)] 0 7 : Memory) = [(0, 7), (1, 5)] ∧ (Memory.write [(1, 5)] 1 0 : Memory) = [] ∧
      (Memory.write [] 0xFF 3 : Memory) = [(255, 3)] ∧ Memory.read [(1, 5)] 0xFF = 0 := by decide

theorem device_wf : device.rf.wf := by decide

theorem ready_transfers (slave : Slave) : ReadyToTransfer (ready slave) := ⟨⟨rfl, rfl⟩, rfl⟩

theorem ready_inv (slave : Slave) (h : slaveWf slave) : Machine.Inv (ready slave) :=
  ⟨(by show (0 : Nat) ≠ 1; decide), .inr rfl, fun _ => rfl, (fun h => by cases h), h⟩

/-! ### Witnesses: the hypotheses of each statement are met together -/

theorem witness_EncodeOfDecodedIsTheWord : decode 0x045A1A00 = .ok (.beRd8 0x5A 0x1A false) := by decide

theorem witness_DecodedCommandIsOfTheSelectedRow : decode 0x1300FF01 = .ok (.dcSetwave 0xFF 0x01) := by
  decide

theorem witness_ForceSetsTheMaskedBits : (7 : Nat) < 8 := by decide

theorem witness_WaveRegisterFollowsTheSlot : (0 : Byte).toNat ≤ 7 ∧ (7 : Byte).toNat ≤ 7 := by decide

theorem witness_StepRunsTheDecodedCommand :
    (fresh absent).busy = false ∧ { fresh absent with offered := [0x00000000] }.offered = [0x00000000] ∧
      decode 0x00000000 = .ok .beBegin := by decide

theorem witness_IllegalWordAnswersFailure :
    (ready absent).busy = false ∧ wordLegal 0x05000000 = false ∧ wordLegal 0x16800000 = false := by decide

theorem witness_IdleBlockWaitsForTheHost :
    (ready absent).busy = false ∧ (ready absent).offered = [] := ⟨rfl, rfl⟩

theorem witness_BusyBlockAcceptsNothing : hung.busy = true := rfl

theorem witness_ResetMeetsTheInvariant :
    (parameters .none).pinScl ≠ (parameters .none).pinSda ∧ slaveWf (.reference device) :=
  ⟨by decide, device_wf⟩

theorem witness_ClockMicroOpsDriveTheClock : (ready absent).sclm = .out := rfl

theorem witness_DataMicroOpsPullOrRelease :
    { ready absent with sdam := .low }.sdam = .low ∧ (ready absent).sdam = .rel := ⟨rfl, rfl⟩

theorem witness_SampleReadsTheDataWire :
    (ready absent).par.stallModel = .none ∧ sampleHangs (ready absent) = false ∧
      sampleHangs hung = true ∧ { ready absent with sdam := .low }.sdam = .low ∧ (ready absent).sdam = .rel :=
  ⟨rfl, rfl, rfl, rfl, rfl⟩

theorem witness_ByteWriteSequence : (ready absent).par.stallModel = .none := rfl

theorem witness_ByteReadSequence :
    (ready (.oracle (wireBits 0xA5 ++ [true]))).par.stallModel = .none ∧
      (ready (.oracle (wireBits 0xA5 ++ [true]))).slave = .oracle (wireBits 0xA5 ++ [true]) ∧
      (ready (.reference device)).slave = .reference device := ⟨rfl, rfl, rfl⟩

theorem witness_BeginConfiguresTheLines :
    (fresh absent).busy = false ∧ (fresh absent).sclm = .unconf ∧ (fresh absent).sdam = .unconf :=
  ⟨rfl, rfl, rfl⟩

theorem witness_SetHalfPeriodStoresItsOperand : (fresh absent).busy = false := rfl

theorem witness_ProbeAnswersTheAcknowledgement : ReadyToTransfer (ready absent) := ready_transfers _

theorem witness_RegisterWriteSequence : ReadyToTransfer (ready (.oracle [false, true])) := ready_transfers _

theorem witness_RegisterReadSequence :
    ReadyToTransfer (ready (.reference device)) ∧ (fresh absent).busy = false := ⟨ready_transfers _, rfl⟩

theorem witness_NullDestinationFailsWithoutBusActivity : (fresh absent).busy = false := rfl

theorem witness_ResultlessWritesAlwaysAnswerDone : ReadyToTransfer (ready absent) := ready_transfers _

theorem witness_WaveformSlotWrite :
    (7 : Byte).toNat ≤ 7 ∧ ReadyToTransfer (ready absent) ∧ 7 < (8 : Byte).toNat ∧ 7 < (255 : Byte).toNat ∧
      (fresh absent).busy = false := ⟨by decide, ready_transfers _, by decide, by decide, rfl⟩

theorem witness_StatusReadSequence : ReadyToTransfer (ready (.reference device)) := ready_transfers _

theorem witness_ConnectionProbeSequence : ReadyToTransfer (ready (.reference device)) := ready_transfers _

theorem witness_InitialisationSequence : ReadyToTransfer (ready (.reference device)) := ready_transfers _

theorem witness_FramesOnTheWire :
    writeEnd (.ok ()) = true ∧ writeEnd (.error .nackAddrW) = true ∧ writeEnd (.error .nackReg) = true ∧
      writeEnd (.error .nackData) = true ∧ readEnd (.ok 0x00) = true ∧ readEnd (.ok 0xFF) = true ∧
      readEnd (.error .nackAddrW) = true ∧ readEnd (.error .nackReg) = true ∧
      readEnd (.error .nackAddrR) = true := by decide

theorem witness_CountsOfTheSequences :
    writeEnd (.error .nackAddrW) = true ∧ writeEnd (.error .nackReg) = true ∧
      writeEnd (.error .nackData) = true ∧ writeEnd (.ok ()) = true ∧ readEnd (.error .nackAddrW) = true ∧
      readEnd (.error .nackReg) = true ∧ readEnd (.error .nackAddrR) = true ∧ readEnd (.ok 0xA5) = true := by
  decide

theorem witness_SamplesFindTheLineReleased :
    ReadyToTransfer (ready (.reference device)) ∧
      ∃ t, exec (.beRd8 0x5A 0x00 false) (ready (.reference device)) = .next t :=
  ⟨ready_transfers _, (next_of_yields test_beRd8).imp fun _ h => h.1⟩

theorem witness_ControllerCommandsAreEngineFrames :
    ReadyToTransfer (ready (.reference device)) ∧ (7 : Byte).toNat ≤ 7 ∧ 7 < (8 : Byte).toNat :=
  ⟨ready_transfers _, by decide, by decide⟩

theorem witness_RefusedExactlyOutsideThePrecondition :
    (fresh absent).busy = false ∧ transfers (.beProbe 0x5A) = true ∧ linesIdle (fresh absent) = false ∧
      (ready absent).busy = false ∧ ¬ linesUnconfigured (ready absent) :=
  ⟨rfl, rfl, rfl, rfl, fun h => by cases h.1⟩

theorem witness_StallHoldsTheBlockForEver :
    (mayHang 0).busy = false ∧ ∃ t, exec (.beProbe 0x5A) (mayHang 0) = .next t ∧ t.busy = true := by
  refine ⟨rfl, (next_of_yields test_stall).imp fun t h => ⟨h.1, ?_⟩⟩
  simp only [Bool.and_eq_true] at h
  exact h.2.1.1.1.1

theorem witness_AcceptedCommandsComplete :
    (Ready (ready absent) ∧ precondition .dcBegin (ready absent)) ∧
      (Ready (fresh absent) ∧ precondition .beBegin (fresh absent)) ∧
      (Ready (fresh absent) ∧ precondition (.dcSetwave 8 1) (fresh absent)) :=
  ⟨⟨⟨rfl, rfl⟩, fun _ => rfl, fun h => by cases h⟩,
    ⟨⟨rfl, rfl⟩, (fun h => by cases h), fun _ => ⟨rfl, rfl⟩⟩,
    ⟨rfl, rfl⟩, (fun h => by cases h), fun h => by cases h⟩

theorem witness_StepKeepsTheInvariant :
    Machine.Inv { ready (.reference device) with offered := [0x01000007] } ∧
      ∃ t, step { ready (.reference device) with offered := [0x01000007] } = .next t :=
  ⟨⟨by decide, .inr rfl, fun _ => rfl, (fun h => by cases h), device_wf⟩, _, rfl⟩

theorem witness_OnlySetHalfPeriodWritesTheHalfPeriod :
    (∃ t, exec (.beSethp 7) (fresh absent) = .next t) ∧ ∃ t, exec .dcGo (ready absent) = .next t :=
  ⟨⟨_, rfl⟩, (next_of_yields test_dcGo_absent).imp fun _ h => h.1⟩

theorem witness_ClockPinStaysConfigured :
    (∃ t, exec .beBegin (fresh absent) = .next t) ∧ ∃ t, exec .dcGo (ready absent) = .next t :=
  ⟨⟨_, rfl⟩, (next_of_yields test_dcGo_absent).imp fun _ h => h.1⟩

theorem witness_ElapsedTimeIsTheWaits :
    (∃ t, exec .dcGo (ready absent) = .next t) ∧ ∃ t, exec (.beProbe 0x5A) (mayHang 0) = .next t :=
  ⟨(next_of_yields test_dcGo_absent).imp fun _ h => h.1, (next_of_yields test_stall).imp fun _ h => h.1⟩

theorem witness_LeftoverStateIsNeverRead :
    SameBlock (ready absent)
      { ready absent with
        opc := 0x13, a := 0x5A, b := 1, c := 2, resp := ⟨true, 0xE0⟩, sh := 3, biti := 4, ackf := true,
        upc := 5, t := 105, offered := [0] } := ⟨rfl, rfl, rfl, rfl, rfl, rfl, rfl, rfl, rfl⟩

theorem witness_FailureIsOnlyAResponse :
    Ready (ready (.oracle [false, true])) ∧
      ∃ t, exec (.beWr8 0x5A 0x0C 0x01) (ready (.oracle [false, true])) = .next t ∧ t.resp.ok = false := by
  have k : yields (.beWr8 0x5A 0x0C 0x01) (ready (.oracle [false, true])) (fun t => !t.resp.ok) = true := by
    decide +kernel
  exact ⟨⟨rfl, rfl⟩, (next_of_yields k).imp fun _ h => ⟨h.1, by simpa using h.2⟩⟩

theorem witness_FirstMissingAcknowledgementEndsTheFrame :
    (ReadyToTransfer (ready (.oracle [true])) ∧ (ready (.oracle [true])).slave = .oracle [true]) ∧
      (ReadyToTransfer (ready (.oracle [false, true])) ∧
        (ready (.oracle [false, true])).slave = .oracle [false, true]) ∧
      (ReadyToTransfer (ready (.oracle [false, false, true])) ∧
        (ready (.oracle [false, false, true])).slave = .oracle [false, false, true]) :=
  ⟨⟨ready_transfers _, rfl⟩, ⟨ready_transfers _, rfl⟩, ready_transfers _, rfl⟩

theorem witness_AcknowledgedWriteSendsItsBytes :
    ReadyToTransfer (ready (.oracle [false, false, false])) ∧
      (ready (.oracle [false, false, false])).slave = .oracle [false, false, false] := ⟨ready_transfers _, rfl⟩

theorem witness_ReadReturnsTheDrivenByte :
    ReadyToTransfer (ready (.oracle (false :: false :: false :: (wireBits 0xA5 ++ [])))) ∧
      (ready (.oracle (false :: false :: false :: (wireBits 0xA5 ++ [])))).slave =
        .oracle (false :: false :: false :: (wireBits 0xA5 ++ [])) := ⟨ready_transfers _, rfl⟩

theorem witness_InitialisationReportsOnlyItsFirstWrite :
    (ReadyToTransfer (ready (.oracle [true])) ∧ (ready (.oracle [true])).slave = .oracle [true]) ∧
      (ReadyToTransfer (ready (.oracle [false, true])) ∧
        (ready (.oracle [false, true])).slave = .oracle [false, true]) ∧
      (ReadyToTransfer (ready (.oracle [false, false, true])) ∧
        (ready (.oracle [false, false, true])).slave = .oracle [false, false, true]) ∧
      (ReadyToTransfer (ready (.oracle [false, false, false])) ∧
        (ready (.oracle [false, false, false])).slave = .oracle [false, false, false]) :=
  ⟨⟨ready_transfers _, rfl⟩, ⟨ready_transfers _, rfl⟩, ⟨ready_transfers _, rfl⟩, ready_transfers _, rfl⟩

theorem witness_WriteReachesTheAddressedRegister :
    ReadyToTransfer (ready (.reference device)) ∧
      (ready (.reference device)).slave = .reference device ∧ device.rf.wf ∧ device.hears 0x5A = true ∧
      device.hears 0x5B = false := ⟨ready_transfers _, rfl, device_wf, by decide, by decide⟩

theorem witness_ReadAnswersTheAddressedRegister :
    ReadyToTransfer (ready (.reference device)) ∧ (ready (.reference device)).slave = .reference device :=
  ⟨ready_transfers _, rfl⟩

theorem witness_ControllerWritesReachTheirRegister :
    (controllerStore (.dcSetwave 7 0x2F) = some (0x0B, 0x2F) ∧ controllerStore .dcGo = some (0x0C, 0x01) ∧
      controllerStore (.dcSellib 2) = some (0x03, 2) ∧ controllerStore (.dcSetmode 5) = some (0x01, 5)) ∧
      ReadyToTransfer (ready (.reference device)) ∧
      (ready (.reference device)).slave = .reference device ∧ device.rf.wf :=
  ⟨by decide, ready_transfers _, rfl, device_wf⟩

theorem witness_StoresOnlyToTheCommandsRegisters :
    Ready (ready (.reference device)) ∧ (ready (.reference device)).slave = .reference device ∧
      device.rf.wf ∧ (∃ t, exec .dcBegin (ready (.reference device)) = .next t) ∧
      (0x00 : Byte) ∉ storedRegisters .dcBegin :=
  ⟨⟨rfl, rfl⟩, rfl, device_wf, (next_of_yields test_dcBegin).imp fun _ h => h.1, by decide⟩

theorem witness_ReadBackAfterWrite :
    ReadyToTransfer (ready (.reference device)) ∧
      (ready (.reference device)).slave = .reference device ∧ device.rf.wf ∧ device.hears 0x5A = true ∧
      (0x02 : Byte) ∉ device.ro := ⟨ready_transfers _, rfl, device_wf, by decide, by decide⟩

theorem witness_InitialisationLeavesTheDefaults :
    ReadyToTransfer (ready (.reference device)) ∧
      (ready (.reference device)).slave = .reference device ∧ device.rf.wf ∧
      (∀ q, q ∈ initialisedRegisters → q ∉ device.ro) ∧
      device.hears (ready (.reference device)).par.devAddr = true ∧
      { device with present := false }.hears (ready (.reference device)).par.devAddr = false :=
  ⟨ready_transfers _, rfl, device_wf, by decide, by decide, by decide⟩

end Sys2Proof.Tests
end

section
/-! SUPPORT. The family of scope and invariants (R7, R13, R21, R26, R37, R87): what reset leaves, what every
step keeps, which command writes the half-period, and what the observer sees of each frame. -/

namespace Sys2Proof.Machine

/-! ### The invariant of an idle block -/

/-- For an idle block at `UPC = 0` the invariant is about its pins, its lines and its slave only. -/
theorem inv_of_idle {t : State} (hb : t.busy = false) (hu : t.upc = 0)
    (hp : t.par.pinScl ≠ t.par.pinSda) (hl : linesUnconfigured t ∨ linesIdle t = true)
    (hw : slaveWf t.slave) : Inv t where
  pins := hp
  lines := hl
  idle := fun _ => hu
  hung := fun h => by rw [hb] at h; cases h
  slave := hw

/-- The two lines depend on the modes and the clock's level alone. -/
theorem lines_congr {s t : State} (hm : t.sclm = s.sclm) (hc : t.sclo = s.sclo) (hd : t.sdam = s.sdam)
    (h : linesUnconfigured s ∨ linesIdle s = true) : linesUnconfigured t ∨ linesIdle t = true := by
  rw [linesUnconfigured, linesIdle_iff, hm, hc, hd, ← linesIdle_iff]
  exact h

/-- A command that only answers, with or without a new half-period, keeps the invariant. -/
theorem inv_complete_accept {s : State} (hi : Inv s) (w : CommandWord) (us : HalfPeriod) (r : Resp) :
    Inv (complete r { accept w s with hp := us }) :=
  inv_of_idle rfl rfl hi.pins hi.lines hi.slave

/-- The words still to come are no part of the invariant. -/
theorem inv_offered {s : State} (hi : Inv s) (ws : List CommandWord) : Inv { s with offered := ws } :=
  ⟨hi.pins, hi.lines, hi.idle, hi.hung, hi.slave⟩

/-- The response is no part of the invariant, so a rejected word keeps it (R165). -/
theorem inv_rejectWord {s : State} (hi : Inv s) : Inv (rejectWord s) :=
  ⟨hi.pins, hi.lines, hi.idle, hi.hung, hi.slave⟩

/-! ### Reset -/

/-- `Config.pinSda` is chosen to differ from `Config.pinScl` (R7). -/
theorem config_pins_differ : Config.params.pinScl ≠ Config.params.pinSda := by
  show Config.pinScl ≠ Config.pinSda
  unfold Config.pinSda
  split
  · omega
  · exact Ne.symm ‹_›

theorem inv_construct {par : Params} {slave : Slave} (hang : Option Nat) (hp : par.pinScl ≠ par.pinSda)
    (hw : slaveWf slave) : Inv (State.construct par slave hang) :=
  inv_of_idle rfl rfl hp (.inl ⟨rfl, rfl⟩) hw

/-- Settles O15: each value is the one `State.construct` writes. -/
theorem resetStateIsAsTheSpecSays : Obligations.ResetStateIsAsTheSpecSays :=
  ⟨fun _ _ _ => ⟨rfl, rfl, rfl, rfl, rfl, rfl, rfl, rfl⟩, rfl, rfl, rfl, rfl⟩

/-- Settles O16: reset is a construction whose pins differ, with the open slave. -/
theorem resetMeetsTheInvariant : Obligations.ResetMeetsTheInvariant :=
  ⟨inv_construct Config.hangAfter config_pins_differ trivial, fun _ _ hang => inv_construct hang⟩

/-! ### Every step keeps the invariant -/

/-- A transferring command that completes gives the lines back as it found them (R26). -/
theorem inv_of_transferred {w : CommandWord} {s t : State} (hi : Inv s) (h : Transferred w s t) : Inv t := by
  obtain ⟨ops, r, hc, -⟩ := h.done
  exact inv_of_idle hc.busy hc.upc (by rw [hc.par]; exact hi.pins)
    (lines_congr hc.sclm hc.sclo hc.sdam hi.lines) (h.slave hi.slave)

/-- A hang leaves the block busy in its sample with the clock high and the data line released: the idle
line state, once the clock is configured (R164). -/
theorem inv_of_hungFrom {n : Nat} {w : CommandWord} {s t : State} (hi : Inv s) (hl : linesIdle s = true)
    (h : HungFrom n (accept w s) t) : Inv t := by
  obtain ⟨ops, hr, -⟩ := h.ran
  obtain ⟨hm, -, -⟩ := linesIdle_iff.1 hl
  have ht : linesIdle t = true := linesIdle_iff.2 ⟨hr.sclm.trans hm, h.sclo, h.sdam⟩
  exact
    { pins := by rw [hr.par]; exact hi.pins
      lines := .inr ht
      idle := fun hb => by rw [hr.busy] at hb; cases hb
      hung := fun _ => ⟨h.hangs, ht⟩
      slave := h.slave hi.slave }

/-- A command that runs to a next state keeps the invariant. -/
theorem exec_keeps_inv {i : Instr} {s t : State} (hi : Inv s) (hn : exec i s = .next t) : Inv t := by
  cases hb : s.busy with
  | true =>
    rw [exec_busy i hb] at hn
    cases hn
    exact hi
  | false =>
    rcases exec_next hb hn with ⟨-, h⟩ | ⟨hl, h⟩ | ⟨-, -, rfl⟩ | ⟨us, -, rfl⟩ | ⟨r, -, rfl⟩
    · exact inv_of_transferred hi h
    · exact inv_of_hungFrom hi hl h
    · exact inv_of_idle rfl rfl hi.pins (.inr rfl) hi.slave
    · exact inv_complete_accept hi _ us _
    · exact inv_complete_accept hi _ s.hp r

/-- A word, legal or not, keeps the invariant (R85, R165). -/
theorem runWord_keeps_inv {w : CommandWord} {s t : State} (hi : Inv s) (hn : runWord w s = .next t) :
    Inv t := by
  unfold runWord at hn
  split at hn
  · exact exec_keeps_inv hi hn
  · cases hn
    exact inv_rejectWord hi

/-- Settles O44: a step changes nothing, or runs the first offered word. -/
theorem stepKeepsTheInvariant : Obligations.StepKeepsTheInvariant := by
  intro s t hi hn
  unfold step takeWord at hn
  split at hn
  · cases hn
    exact hi
  · split at hn
    · cases hn
      exact hi
    · exact runWord_keeps_inv (inv_offered hi _) hn

/-! ### The half-period and the construction constants -/

/-- Settles O45, by the cases of what a command can do. -/
theorem onlySetHalfPeriodWritesTheHalfPeriod : Obligations.OnlySetHalfPeriodWritesTheHalfPeriod := by
  intro i s t hn
  cases hb : s.busy with
  | true =>
    rw [exec_busy i hb] at hn
    cases hn
    exact ⟨rfl, .inl rfl⟩
  | false =>
    rcases exec_next hb hn with ⟨-, h⟩ | ⟨-, h⟩ | ⟨-, -, rfl⟩ | ⟨us, hi, rfl⟩ | ⟨r, -, rfl⟩
    · obtain ⟨ops, r, hc, -⟩ := h.done
      exact ⟨hc.par, .inl hc.hp⟩
    · obtain ⟨ops, hr, -⟩ := h.ran
      exact ⟨hr.par, .inl hr.hp⟩
    · exact ⟨rfl, .inl rfl⟩
    · exact ⟨rfl, .inr ⟨us, hi, rfl⟩⟩
    · exact ⟨rfl, .inl rfl⟩

/-! ### The frames on the wire -/

/-- What is seen along a trace that goes from idle lines to idle lines does not depend on what follows. -/
theorem Seen.busEvents_append {x : List MicroOp} {es : List BusEvent} (h : Seen Watch.idle x es Watch.idle)
    (rest : List MicroOp) : busEvents (x ++ rest) = es ++ busEvents rest := by
  obtain ⟨he, ha, -⟩ := h
  rw [busEvents, events_append, he, ha, busEvents]

/-- The ways a write can end (R161). -/
theorem writeEnd_cases {x : Except Cause Unit} (h : writeEnd x = true) :
    x = .error .nackAddrW ∨ x = .error .nackReg ∨ x = .error .nackData ∨ x = .ok () := by
  cases x with
  | ok _ => simp
  | error why => simpa [writeEnd, or_assoc] using h

/-- The ways a read with a destination can end (R161). -/
theorem readEnd_cases {x : Except Cause Byte} (h : readEnd x = true) :
    x = .error .nackAddrW ∨ x = .error .nackReg ∨ x = .error .nackAddrR ∨ ∃ d, x = .ok d := by
  cases x with
  | ok d => simp
  | error why => simpa [readEnd, or_assoc] using h

/-- A start condition on idle lines and the byte after it (R127, R129). -/
theorem seen_opening (b : Byte) (level : Bool) :
    Seen Watch.idle (startOps ++ wbyteOps b level) [.start, .wrote b (!level)]
      ⟨false, false, some level, false, []⟩ :=
  (seen_start none false).append (seen_wbyte b level true none)

theorem seen_probe (addr : BusAddr) (k : Bool) :
    Seen Watch.idle (probeOps addr k) (probeEvents addr k) Watch.idle := by
  simpa [probeEvents, probeOps] using (seen_opening (addressByte addr false) (!k)).append (seen_stop _ _)

theorem seen_write (addr : BusAddr) (reg val : Byte) {x : Except Cause Unit} (hx : writeEnd x = true) :
    Seen Watch.idle (writeOps addr reg val x) (writeEvents addr reg val x) Watch.idle := by
  have sent (level : Bool) := (seen_opening (addressByte addr false) false).append (seen_wbyte reg level _ _)
  rcases writeEnd_cases hx with rfl | rfl | rfl | rfl
  · exact (seen_opening (addressByte addr false) true).append (seen_stop _ _)
  · exact (sent true).append (seen_stop _ _)
  · exact ((sent false).append (seen_wbyte val true _ _)).append (seen_stop _ _)
  · exact ((sent false).append (seen_wbyte val false _ _)).append (seen_stop _ _)

theorem seen_read (addr : BusAddr) (reg : Byte) {x : Except Cause Byte} (hx : readEnd x = true) :
    Seen Watch.idle (readOps addr reg x) (readEvents addr reg x) Watch.idle := by
  have sent (level : Bool) := (seen_opening (addressByte addr false) false).append (seen_wbyte reg level _ _)
  have again (level : Bool) :=
    ((sent false).append (seen_repeatedStart _ _)).append (seen_wbyte (addressByte addr true) level _ _)
  rcases readEnd_cases hx with rfl | rfl | rfl | ⟨d, rfl⟩
  · exact (seen_opening (addressByte addr false) true).append (seen_stop _ _)
  · exact (sent true).append (seen_stop _ _)
  · exact (again true).append (seen_stop _ _)
  · exact ((again false).append (seen_rbyte false d _ _)).append (seen_stop _ _)

/-- Settles O36: each frame is seen from idle lines to idle lines. -/
theorem framesOnTheWire : Obligations.FramesOnTheWire := fun addr reg val rest =>
  ⟨fun k => (seen_probe addr k).busEvents_append rest,
    fun _ hx => (seen_write addr reg val hx).busEvents_append rest,
    fun _ hx => (seen_read addr reg hx).busEvents_append rest⟩

end Sys2Proof.Machine
end

section
/-! SUPPORT. The family of the block's state: what a command reads of what earlier ones left (R27, R30),
what an idle and a busy block do (R31, R164, R192), the data line (R25, R123 to R125), and the commands
`BE.BEGIN`, `BE.SETHP`, `BE.RD8` and the writes without a result (R111, R112, R115, R143 to R147). -/

namespace Sys2Proof.Machine

/-! ### No command reads what earlier commands left -/

theorem follows_configureClock {b : Bool} : Follows b b configureClock := by
  refine follows_of (fun _ => ()) _ (fun _ => rfl) (fun _ => rfl) ?_
  rintro s u ⟨⟨h1, h2, h3, h4, h5, h6, h7, h8, h9⟩, h⟩
  exact ⟨rfl, ⟨⟨h1, h2, rfl, h4, h5, h6, h7, h8, h9⟩, h⟩, Nat.add_comm ..⟩

theorem follows_putHp {b : Bool} (us : HalfPeriod) : Follows b b (putHp us) := by
  refine follows_of (fun _ => ()) _ (fun _ => rfl) (fun _ => rfl) ?_
  rintro s u ⟨⟨h1, h2, h3, h4, h5, h6, h7, h8, h9⟩, h⟩
  exact ⟨rfl, ⟨⟨h1, rfl, h3, h4, h5, h6, h7, h8, h9⟩, h⟩, Nat.add_comm ..⟩

theorem follows_beginLines : Follows false false beginLines :=
  follows_bind follows_configureClock fun _ => follows_bind follows_sclHi fun _ =>
    follows_bind follows_sdaRel fun _ => follows_pure _

/-- A discarded write as a command of its own (R172). -/
theorem follows_wrDone (p : Params) (r v : Byte) : Follows false false (wrDone p r v) :=
  follows_bind (follows_wrDiscard p r v) fun _ => follows_pure _

/-- A sequence followed by the making of its response. -/
theorem follows_respond {α : Type} {x : Proc α} (hx : Follows false false x) (f : α → Resp) :
    Follows false false (do let a ← x; return f a) :=
  follows_bind hx fun _ => follows_pure _

section alike

variable {s u : State} {w w' : CommandWord} {x : Proc Resp}

/-- `runCommand_alike` for a sequence whose value is the response. -/
theorem runCommand_alike_eq (hx : Follows false false x) (h : SameBlock s u) :
    OutcomesAlike Eq (runCommand w x s) (runCommand w' x u) s u := by
  simpa using runCommand_alike (f := id) (g := id) (ans := Eq) hx (fun _ => rfl) (w := w) (w' := w') h

/-- `runTransfer_alike` for a sequence whose value is the response. -/
theorem runTransfer_alike_eq (hx : Follows false false x) (h : SameBlock s u) :
    OutcomesAlike Eq (runTransfer w x s) (runTransfer w' x u) s u := by
  simpa using runTransfer_alike (f := id) (g := id) (ans := Eq) hx (fun _ => rfl) (w := w) (w' := w') h

/-- The same for a sequence that the construction constants give (R32, R140): no command writes them. -/
theorem runTransfer_alike_par (f : Params → Proc Resp) (hf : ∀ p, Follows false false (f p))
    (h : SameBlock s u) : OutcomesAlike Eq (runTransfer w (f s.par) s) (runTransfer w' (f u.par) u) s u := by
  rw [← h.par]
  exact runTransfer_alike_eq (hf s.par) h

theorem wrDone_alike (r v : Byte) (h : SameBlock s u) :
    OutcomesAlike Eq (runTransfer w (wrDone s.par r v) s) (runTransfer w' (wrDone u.par r v) u) s u :=
  runTransfer_alike_par (fun p => wrDone p r v) (fun p => follows_wrDone p r v) h

theorem outcomesAlike_refused {ans : Resp → Resp → Prop} (e : Refusal) :
    OutcomesAlike ans (.refused e) (.refused e) s u :=
  .inl ⟨e, rfl, rfl⟩

theorem execBeBegin_alike (h : SameBlock s u) :
    OutcomesAlike Eq (execBeBegin s) (execBeBegin u) s u := by
  have run := runCommand_alike_eq (w := encode .beBegin) (w' := encode .beBegin) follows_beginLines h
  unfold execBeBegin
  rw [← h.busy, ← h.sclm, ← h.sdam]
  split
  · rename_i hb
    rwa [runCommand_busy hb, runCommand_busy (h.busy ▸ hb)] at run
  · split
    · exact run
    · exact outcomesAlike_refused _

/-- Every command runs alike from two states that hold the same block (R27, R30, R34, R170): its tests are
on fields the two share, and its sequence follows. -/
theorem exec_alike (i : Instr) (h : SameBlock s u) : OutcomesAlike Eq (exec i s) (exec i u) s u := by
  cases i with
  | beBegin => exact execBeBegin_alike h
  | beSethp us => exact runCommand_alike_eq (follows_respond (follows_putHp us) fun _ => respDone) h
  | beProbe addr => exact runTransfer_alike_eq (follows_respond (follows_probe addr) _) h
  | beWr8 addr reg val =>
    exact runTransfer_alike_eq (follows_respond (follows_writeRegister addr reg val) _) h
  | beRd8 addr reg nd =>
    cases nd with
    | true => exact runCommand_alike_eq (follows_pure _) h
    | false => exact runTransfer_alike_eq (follows_respond (follows_readRegister addr reg) _) h
  | dcBegin => exact runTransfer_alike_par initialise follows_initialise h
  | dcSellib id => exact wrDone_alike regLibsel id h
  | dcSetmode mode => exact wrDone_alike regMode mode h
  | dcSetwave slot effect =>
    simp only [exec, execDcSetwave]
    split
    · exact runCommand_alike_eq (follows_pure _) h
    · exact wrDone_alike (waveRegister slot) effect h
  | dcGo => exact wrDone_alike regGo 0x01 h
  | dcRdstatus =>
    exact runTransfer_alike_par (fun p => do let x ← rd p regStatus; return respOfRead x)
      (fun p => follows_respond (follows_readRegister p.devAddr regStatus) _) h
  | dcIsconn =>
    exact runTransfer_alike_par (fun p => do let k ← probe p.devAddr; return respBool k)
      (fun p => follows_respond (follows_probe p.devAddr) _) h

end alike

/-- Settles O48: no sequence reads `SH` before it writes it, and none reads the latches, `RESP`, `BITI` or
`ACKF`. -/
theorem leftoverStateIsNeverRead : Obligations.LeftoverStateIsNeverRead := fun i _ _ h => exec_alike i h

/-! ### An idle block and a busy block -/

theorem step_busy {s : State} (hb : s.busy = true) : step s = .next s := by
  simp [step, takeWord, hb]

theorem step_idle_unoffered {s : State} (hb : s.busy = false) (ho : s.offered = []) : step s = .next s := by
  simp [step, takeWord, hb, ho]

/-- A machine stays in a state that its step does not change. -/
theorem run_of_step_same {M : Host.Core} {s : M.State} (h : M.step s = .next s) (n : Nat) :
    M.run n s = .next s := by
  induction n with
  | zero => rfl
  | succ n ih => rw [Host.Core.run, h]; exact ih

/-- A busy block stays as it is for any number of steps (R31, R164). -/
theorem run_busy {s : State} (hb : s.busy = true) (n : Nat) : Host.Core.run Sys2Proof.core n s = .next s :=
  run_of_step_same (M := Sys2Proof.core) (step_busy hb) n

/-- Settles O12: without an offered word a step stops before `runWord`. -/
theorem idleBlockWaitsForTheHost : Obligations.IdleBlockWaitsForTheHost :=
  ⟨fun _ hb ho => step_idle_unoffered hb ho, rfl, rfl⟩

/-- Settles O13: `BUSY` is looked at before anything else. -/
theorem busyBlockAcceptsNothing : Obligations.BusyBlockAcceptsNothing :=
  fun _ hb => ⟨step_busy hb, fun i => exec_busy i hb⟩

/-- A command of an idle block that leaves it busy hangs in a sample of its transfer: every other end is a
completion (R164, R169). -/
theorem hungFrom_of_busy {i : Instr} {s t : State} (hb : s.busy = false) (hn : exec i s = .next t)
    (ht : t.busy = true) : HungFrom 2028 (accept (encode i) s) t := by
  rcases exec_next hb hn with ⟨-, h⟩ | ⟨-, h⟩ | ⟨-, -, rfl⟩ | ⟨us, -, rfl⟩ | ⟨r, -, rfl⟩
  · obtain ⟨ops, r, hc, -⟩ := h.done
    rw [hc.busy] at ht
    cases ht
  · exact h
  · cases ht
  · cases ht
  · cases ht

/-- Settles O42: the hung sample fixes the stall model and the lines, and a busy block changes no more. -/
theorem stallHoldsTheBlockForEver : Obligations.StallHoldsTheBlockForEver := by
  intro i s t hb hn ht
  have h := hungFrom_of_busy hb hn ht
  obtain ⟨ops, hr, hl⟩ := h.ran
  have hu : t.upc = 0 + ops.length := hr.upc
  exact ⟨stallModel_of_hangs h.hangs, hr.resp, h.sclo, h.sdam, by omega, fun j => exec_busy j ht, run_busy ht⟩

/-! ### The clock pin and the time of every command -/

/-- Settles O46, by the cases of what a command can do. -/
theorem clockPinStaysConfigured : Obligations.ClockPinStaysConfigured := by
  intro i s t hn
  cases hb : s.busy with
  | true =>
    rw [exec_busy i hb] at hn
    cases hn
    exact .inl rfl
  | false =>
    rcases exec_next hb hn with ⟨-, h⟩ | ⟨-, h⟩ | ⟨hi, ⟨hm, -⟩, rfl⟩ | ⟨us, -, rfl⟩ | ⟨r, -, rfl⟩
    · obtain ⟨ops, r, hc, -⟩ := h.done
      exact .inl hc.sclm
    · obtain ⟨ops, hr, -⟩ := h.ran
      exact .inl hr.sclm
    · exact .inr ⟨hi, hm, rfl⟩
    · exact .inl rfl
    · exact .inl rfl

/-- Nothing appended to the trace takes no time. -/
theorem no_ops_no_time (s : State) : s.tr = [].reverse ++ s.tr ∧ s.t = s.t + waits [] * s.hp.toNat := by
  simp

/-- Settles O47: a transfer has run its micro-ops to its end or to its hang, `BE.BEGIN` has run two that
are no waits, and the other commands none. -/
theorem elapsedTimeIsTheWaits : Obligations.ElapsedTimeIsTheWaits := by
  intro i s t hn
  cases hb : s.busy with
  | true =>
    rw [exec_busy i hb] at hn
    cases hn
    exact ⟨[], no_ops_no_time s⟩
  | false =>
    rcases exec_next hb hn with ⟨-, h⟩ | ⟨-, h⟩ | ⟨-, -, rfl⟩ | ⟨us, -, rfl⟩ | ⟨r, -, rfl⟩
    · obtain ⟨ops, r, hc, -⟩ := h.done
      exact ⟨ops, hc.tr, hc.time⟩
    · obtain ⟨ops, hr, -⟩ := h.ran
      exact ⟨ops, hr.tr, hr.time⟩
    · exact ⟨[.sclHi, .sdaRel], rfl, by simp [waits]⟩
    · exact ⟨[], no_ops_no_time s⟩
    · exact ⟨[], no_ops_no_time s⟩

/-! ### The data line -/

theorem sdaWire_low {s : State} (h : s.sdam = .low) (pulls : Bool) : sdaWire s pulls = some false := by
  simp [sdaWire, h]

theorem sdaWire_rel {s : State} (h : s.sdam = .rel) (pulls : Bool) : sdaWire s pulls = some (!pulls) := by
  simp [sdaWire, h]

/-- Settles O18: the micro-ops by their definitions, the wire by the mode (R25). -/
theorem dataMicroOpsPullOrRelease : Obligations.DataMicroOpsPullOrRelease := fun _ =>
  ⟨rfl, rfl, fun pulls => ⟨fun h => sdaWire_low h pulls, fun h => sdaWire_rel h pulls⟩⟩

theorem smp_hangs {s : State} (q : Query) (h : sampleHangs s = true) : smp q s = .error .sample s := by
  simp [smp, h]

theorem smp_completes {s : State} (q : Query) (h : sampleHangs s = false) :
    smp q s = .ok (sampleLevel s (s.slave.answer s.tr q).1)
      (record (.smp (sampleLevel s (s.slave.answer s.tr q).1))
        { s with slave := (s.slave.answer s.tr q).2, hangAfter := countSample s }) := by
  simp [smp, h]

/-- Settles O20: the level is `sampleLevel` of the slave's answer. -/
theorem sampleReadsTheDataWire : Obligations.SampleReadsTheDataWire := fun q _ =>
  ⟨sampleHangs_none, smp_hangs q, fun h =>
    ⟨_, smp_completes q h, fun hd => sampleLevel_low hd _, fun hd => sampleLevel_rel hd _⟩⟩

/-! ### Single commands -/

/-- Settles O25: unconfigured lines are the first case of a command that does not transfer. -/
theorem beginConfiguresTheLines : Obligations.BeginConfiguresTheLines := by
  intro s hb hm hd
  rcases exec_local (i := .beBegin) hb rfl with ⟨-, -, h⟩ | ⟨-, hl, -⟩ | ⟨us, hi, -⟩ | ⟨hi, -⟩
  · exact h
  · exact absurd ⟨hm, hd⟩ hl
  · cases hi
  · exact absurd rfl hi

theorem execBeSethp_idle {s : State} (us : HalfPeriod) (hb : s.busy = false) :
    exec (.beSethp us) s = .next (complete respDone { accept (encode (.beSethp us)) s with hp := us }) := by
  simp only [exec, execBeSethp, runCommand, hb]
  rfl

/-- Acceptance of `BE.SETHP` loads its operand into `B` and `C` (R27, R81). -/
theorem accept_beSethp (us : HalfPeriod) (s : State) :
    accept (encode (.beSethp us)) s =
      { s with
        opc := 0x01, a := 0, b := us.extractLsb' 8 8, c := us.extractLsb' 0 8, busy := true, upc := 0 } := by
  simp [accept, encode]

/-- Settles O26: the completed state, with the latches' fields written out. -/
theorem setHalfPeriodStoresItsOperand : Obligations.SetHalfPeriodStoresItsOperand := by
  intro us s hb
  refine ⟨_, execBeSethp_idle us hb, ?_, _, rfl, rfl⟩
  rw [accept_beSethp]
  rfl

/-- A command with no micro-op completes from any idle state. -/
theorem completed_accept (w : CommandWord) (r : Resp) (s : State) :
    Completed w [] r s (complete r (accept w s)) :=
  completed_of_ran (Ran.refl _) rfl rfl

theorem execBeRd8_nullDest {s : State} (addr : BusAddr) (reg : Byte) (hb : s.busy = false) :
    exec (.beRd8 addr reg true) s = .next (complete respFail (accept (encode (.beRd8 addr reg true)) s)) := by
  simp only [exec, execBeRd8, runCommand, hb]
  rfl

/-- Settles O29: the read frame with a destination, no micro-op without one. -/
theorem registerReadSequence : Obligations.RegisterReadSequence := by
  refine ⟨fun addr reg s hr => ?_, fun addr reg s hb => ?_⟩
  · obtain ⟨x, t, hn, he, hc, -, hk⟩ := read_ready hr addr reg
    exact ⟨x, t, he, hn, hc, hk⟩
  · exact ⟨_, execBeRd8_nullDest addr reg hb, completed_accept .., rfl⟩

/-- `wrDone_ready` without the slave's part. -/
theorem wrDone_completes {s : State} {w : CommandWord} (hr : ReadyToTransfer s) (reg val : Byte) :
    ∃ x t, writeEnd x = true ∧ runTransfer w (wrDone s.par reg val) s = .next t ∧
      Completed w (writeOps s.par.devAddr reg val x) ⟨true, 0x00⟩ s t ∧ t.ackf = (respOfWrite x).ok := by
  obtain ⟨x, t, hn, he, hc, -, hk⟩ := wrDone_ready (w := w) hr reg val
  exact ⟨x, t, he, hn, hc, hk⟩

/-- Settles O31: each of the three is one discarded write. -/
theorem resultlessWritesAlwaysAnswerDone : Obligations.ResultlessWritesAlwaysAnswerDone := fun _ hr =>
  ⟨fun id => wrDone_completes hr regLibsel id, fun mode => wrDone_completes hr regMode mode,
    wrDone_completes hr regGo 0x01⟩

end Sys2Proof.Machine
end

section
/-! SUPPORT. The family of the memory: the start, the stop and the byte read (R63, R127, R128, R130), and
what each command leaves in the reference slave's registers (R62 to R65, R114, R115, R140 to R149). -/

namespace Sys2Proof.Machine

/-! ### Start, stop and the byte read -/

/-- Settles O21: `start_spec`, in the order of the statement. -/
theorem startConditionSequence : Obligations.StartConditionSequence := by
  intro s
  obtain ⟨t, ht, hr, hv, hc, hd, htemps⟩ := start_spec s
  exact ⟨t, ht, hr, hc, hd, hv, htemps⟩

/-- Settles O22: `stop_spec`, in the order of the statement. -/
theorem stopConditionSequence : Obligations.StopConditionSequence := by
  intro s
  obtain ⟨t, ht, hr, hv, hc, hd, htemps⟩ := stop_spec s
  exact ⟨t, ht, hr, hc, hd, hv, htemps⟩

/-- A sequence whose samples all complete ends in a state (R164). -/
theorem Ends.completes {α : Type} {n : Nat} {s : State} {r : EStateM.Result Hang State α}
    {P : α → State → Prop} (h : Ends r P (HungFrom n s)) (hn : s.par.stallModel = .none) :
    ∃ a t, r = .ok a t ∧ P a t := by
  cases h with
  | ok h => exact ⟨_, _, rfl, h⟩
  | hung h =>
    obtain ⟨ops, hr, -⟩ := h.ran
    have hs := stallModel_of_hangs h.hangs
    rw [hr.par, hn] at hs
    cases hs

/-- Settles O24: `rbyte_spec`, with the slave's answers to the eight samples read for each kind of slave. -/
theorem byteReadSequence : Obligations.ByteReadSequence := by
  intro sendAck s hn
  obtain ⟨d, t, ht, hr, hbits, hc, hd, hsh, -, hk⟩ := (rbyte_spec sendAck s).completes hn
  refine ⟨d, t, ht, hr, hc, hd, hsh, hk, fun e rest hv => ?_, fun r hv => ?_⟩
  · rw [hv] at hbits
    obtain ⟨he, ht⟩ := answersBits_script (by simp [wireBits]) hbits
    exact ⟨wireBits_inj he, ht⟩
  · rw [hv] at hbits
    exact (answersBits_reference hbits).symm

/-! ### One frame and the reference slave's registers -/

theorem RefSlave.sameDevice.trans {r r' r'' : RefSlave} (h : r.sameDevice r') (k : r'.sameDevice r'') :
    r.sameDevice r'' :=
  ⟨k.1.trans h.1, k.2.1.trans h.2.1, k.2.2.trans h.2.2⟩

/-- Which address a device hears is a matter of its wiring (R62, R64). -/
theorem RefSlave.sameDevice.hears {r r' : RefSlave} (h : r.sameDevice r') (addr : BusAddr) :
    r'.hears addr = r.hears addr := by
  obtain ⟨hp, hs, -⟩ := h
  simp [RefSlave.hears, hp, hs]

/-- The registers after a write frame, each read on its own (R64). -/
theorem writeTalk_registers {addr : BusAddr} {reg val : Byte} {x : Except Cause Unit} {r : RefSlave}
    {v' : Slave} (hm : r.rf.wf) (h : WriteTalk addr reg val x (.reference r) v') :
    ∃ r', v' = .reference r' ∧ r.sameDevice r' ∧ r'.rf.wf ∧
      r'.ptr = (if r.hears addr then reg else r.ptr) ∧
      ∀ q, r'.rf.read q = if r.hears addr then r.after reg val q else r.rf.read q := by
  obtain ⟨-, r', hv, hp, hs, ho, hrf, hptr⟩ := writeTalk_reference h
  refine ⟨r', hv, ⟨hp, hs, ho⟩, ?_, hptr, fun q => ?_⟩
  · rw [hrf]
    split
    · exact put_wf hm reg val
    · exact hm
  · rw [hrf]
    split
    · exact put_read hm reg val q
    · rfl

/-- Settles O54: the write frame's end and its effect are both decided by whether the slave hears. -/
theorem writeReachesTheAddressedRegister : Obligations.WriteReachesTheAddressedRegister := by
  intro addr reg val s r hr hv hm
  obtain ⟨x, t, hn, -, hc, ht, -⟩ := write_ready hr addr reg val
  rw [hv] at ht
  obtain ⟨r', hv', hd, -, hptr, hq⟩ := writeTalk_registers hm ht
  refine ⟨t, r', hn, hv', hd, ?_, hptr, hq⟩
  rw [hc.resp, (writeTalk_reference ht).1]
  cases r.hears addr <;> rfl

/-- A read frame's answer, and what it leaves of the reference slave (R65, R115). -/
theorem read_reference {w : CommandWord} {s : State} {r : RefSlave} (hr : ReadyToTransfer s)
    (hv : s.slave = .reference r) (addr : BusAddr) (reg : Byte) :
    ∃ t r', runTransfer w (do let x ← readRegister addr reg; return respOfRead x) s = .next t ∧
      t.slave = .reference r' ∧ r.sameDevice r' ∧ r'.rf = r.rf ∧
      r'.ptr = (if r.hears addr then reg else r.ptr) ∧
      t.resp = if r.hears addr then ⟨true, r.rf.read reg⟩ else ⟨false, 0x00⟩ := by
  obtain ⟨x, t, hn, -, hc, ht, -⟩ := read_ready (w := w) hr addr reg
  rw [hv] at ht
  obtain ⟨hx, r', hv', hp, hs, ho, hrf, hptr⟩ := readTalk_reference ht
  refine ⟨t, r', hn, hv', ⟨hp, hs, ho⟩, hrf, hptr, ?_⟩
  rw [hc.resp, hx]
  cases r.hears addr <;> rfl

/-- Settles O55: both commands are the read frame. -/
theorem readAnswersTheAddressedRegister : Obligations.ReadAnswersTheAddressedRegister := fun s _ hr hv =>
  ⟨fun addr reg => read_reference hr hv addr reg, read_reference hr hv s.par.devAddr regStatus⟩

/-- A Device Controller command that is one write runs as that write, its result discarded (R140). -/
theorem exec_controllerStore {i : Instr} {reg val : Byte} (h : controllerStore i = some (reg, val))
    (s : State) : exec i s = runTransfer (encode i) (wrDone s.par reg val) s := by
  cases i with
  | dcSellib id => cases h; rfl
  | dcSetmode mode => cases h; rfl
  | dcSetwave slot effect =>
    simp only [controllerStore] at h
    split at h
    · cases h
      have : ¬ 7 < slot.toNat := by omega
      simp only [exec, execDcSetwave, this, if_false]
    · cases h
  | dcGo => cases h; rfl
  | _ => cases h

/-- Settles O56: the discarded write still stores its byte. -/
theorem controllerWritesReachTheirRegister : Obligations.ControllerWritesReachTheirRegister := by
  intro i reg val s r hi hr hv hm
  obtain ⟨x, t, hn, -, hc, ht, -⟩ := wrDone_ready (w := encode i) hr reg val
  rw [hv] at ht
  obtain ⟨r', hv', hd, -, hptr, hq⟩ := writeTalk_registers hm ht
  exact ⟨t, r', (exec_controllerStore hi s).trans hn, hv', hd, hc.resp, hptr, hq⟩

/-- A command that completed leaves the block ready for the next transfer (R26, R31). -/
theorem Completed.readyToTransfer {w : CommandWord} {ops : List MicroOp} {r : Resp} {s t : State}
    (h : Completed w ops r s t) (hr : ReadyToTransfer s) : ReadyToTransfer t := by
  obtain ⟨⟨-, hn⟩, hl⟩ := hr
  refine ⟨⟨h.busy, by rw [h.par]; exact hn⟩, ?_⟩
  rw [linesIdle_iff, h.sclm, h.sclo, h.sdam, ← linesIdle_iff]
  exact hl

/-- Settles O58: the write leaves a ready block and the byte in the register, which the read answers. -/
theorem readBackAfterWrite : Obligations.ReadBackAfterWrite := by
  intro addr reg val s r hr hv hm hh hro
  obtain ⟨x, t, hn, -, hc, ht, -⟩ := write_ready hr addr reg val
  rw [hv] at ht
  obtain ⟨r', hv', hd, -, -, hq⟩ := writeTalk_registers hm ht
  obtain ⟨u, -, hu, -, -, -, -, hresp⟩ := read_reference (hc.readyToTransfer hr) hv' addr reg
  refine ⟨t, u, hn, hu, ?_⟩
  rw [hresp, hd.hears, hq reg, hh]
  simp [RefSlave.after, hro]

/-! ### No store outside the command's registers -/

/-- From `v` to `v'` a reference slave stays the same device and its registers outside `regs` stay as they
are; its memory stays canonical, so that this can be said of one frame after another. -/
def StoresWithin (regs : List Byte) (v v' : Slave) : Prop :=
  ∀ r, v = .reference r → r.rf.wf → ∃ r', v' = .reference r' ∧ r.sameDevice r' ∧ r'.rf.wf ∧
    ∀ q, q ∉ regs → r'.rf.read q = r.rf.read q

section within

variable {regs : List Byte} {addr : BusAddr} {reg val : Byte} {p : Params} {v v' v'' : Slave}

theorem StoresWithin.refl : StoresWithin regs v v := fun r hv hm =>
  ⟨r, hv, ⟨rfl, rfl, rfl⟩, hm, fun _ _ => rfl⟩

theorem StoresWithin.trans (h : StoresWithin regs v v') (k : StoresWithin regs v' v'') :
    StoresWithin regs v v'' := by
  intro r hv hm
  obtain ⟨r1, hv1, hd1, hm1, hq1⟩ := h r hv hm
  obtain ⟨r2, hv2, hd2, hm2, hq2⟩ := k r1 hv1 hm1
  exact ⟨r2, hv2, hd1.trans hd2, hm2, fun q hq => (hq2 q hq).trans (hq1 q hq)⟩

theorem ProbeTalk.storesWithin {k : Bool} (h : ProbeTalk addr k v v') : StoresWithin regs v v' := by
  rintro r rfl hm
  obtain ⟨-, r', hv, hp, hs, ho, hrf, -⟩ := probeTalk_reference h
  exact ⟨r', hv, ⟨hp, hs, ho⟩, hrf ▸ hm, fun q _ => by rw [hrf]⟩

theorem ReadTalk.storesWithin {x : Except Cause Byte} (h : ReadTalk addr reg x v v') :
    StoresWithin regs v v' := by
  rintro r rfl hm
  obtain ⟨-, r', hv, hp, hs, ho, hrf, -⟩ := readTalk_reference h
  exact ⟨r', hv, ⟨hp, hs, ho⟩, hrf ▸ hm, fun q _ => by rw [hrf]⟩

theorem WriteTalk.storesWithin {x : Except Cause Unit} (hreg : reg ∈ regs)
    (h : WriteTalk addr reg val x v v') : StoresWithin regs v v' := by
  rintro r rfl hm
  obtain ⟨r', hv, hd, hm', -, hread⟩ := writeTalk_registers hm h
  refine ⟨r', hv, hd, hm', fun q hq => ?_⟩
  have : q ≠ reg := fun e => hq (e ▸ hreg)
  simp [hread q, RefSlave.after, this]

theorem EachTalk.storesWithin {xs : List ((Byte × Byte) × Except Cause Unit)}
    (hregs : ∀ x ∈ xs, x.1.1 ∈ regs) (h : EachTalk addr xs v v') : StoresWithin regs v v' := by
  induction xs generalizing v with
  | nil => cases h; exact .refl
  | cons x xs ih =>
    obtain ⟨u, hu, hs⟩ := h
    exact (hu.storesWithin (hregs x (by simp))).trans (ih (fun y hy => hregs y (by simp [hy])) hs)

theorem RewriteTalk.storesWithin {m : Byte} {set : Bool} {f : Except Cause Byte} {x : Except Cause Unit}
    (hreg : reg ∈ regs) (h : RewriteTalk p reg m set f x v v') : StoresWithin regs v v' := by
  cases f with
  | error why => exact ReadTalk.storesWithin h
  | ok d =>
    obtain ⟨u, hu, hw⟩ := h
    exact hu.storesWithin.trans (hw.storesWithin hreg)

theorem bestEffortWrites_initialise (p : Params) : ∀ w ∈ bestEffortWrites p, w.1 ∈ initialisedRegisters := by
  simp [bestEffortWrites, initialisedRegisters]

theorem BeginTalk.storesWithin {e : BeginEnds} (h : BeginTalk p e v v') :
    StoresWithin initialisedRegisters v v' := by
  obtain ⟨v1, v2, v3, hmode, hbest, hfb, hc3⟩ := h
  have hregs : ∀ x ∈ (bestEffortWrites p).zip e.best, x.1.1 ∈ initialisedRegisters := fun x hx =>
    bestEffortWrites_initialise p x.1 (List.of_mem_zip hx).1
  exact (((hmode.storesWithin (by decide)).trans (hbest.storesWithin hregs)).trans
    (hfb.storesWithin (by decide))).trans (hc3.storesWithin (by decide))

end within

section frames

variable {s t : State} {w : CommandWord} {regs : List Byte}

theorem probe_storesWithin (hr : ReadyToTransfer s) {addr : BusAddr}
    (hn : runTransfer w (do let k ← probe addr; return respBool k) s = .next t) :
    StoresWithin regs s.slave t.slave := by
  obtain ⟨k, u, hu, -, ht, -⟩ := probe_ready (w := w) hr addr
  cases hn.symm.trans hu
  exact ht.storesWithin

theorem read_storesWithin (hr : ReadyToTransfer s) {addr : BusAddr} {reg : Byte}
    (hn : runTransfer w (do let x ← readRegister addr reg; return respOfRead x) s = .next t) :
    StoresWithin regs s.slave t.slave := by
  obtain ⟨x, u, hu, -, -, ht, -⟩ := read_ready (w := w) hr addr reg
  cases hn.symm.trans hu
  exact ht.storesWithin

theorem write_storesWithin (hr : ReadyToTransfer s) {addr : BusAddr} {reg val : Byte} (hreg : reg ∈ regs)
    (hn : runTransfer w (do let x ← writeRegister addr reg val; return respOfWrite x) s = .next t) :
    StoresWithin regs s.slave t.slave := by
  obtain ⟨x, u, hu, -, -, ht, -⟩ := write_ready (w := w) hr addr reg val
  cases hn.symm.trans hu
  exact ht.storesWithin hreg

theorem controllerStore_storesWithin (hr : ReadyToTransfer s) {i : Instr} {reg val : Byte}
    (hi : controllerStore i = some (reg, val)) (hreg : reg ∈ regs) (hn : exec i s = .next t) :
    StoresWithin regs s.slave t.slave := by
  obtain ⟨x, u, hu, -, -, ht, -⟩ := wrDone_ready (w := encode i) hr reg val
  cases hn.symm.trans ((exec_controllerStore hi s).trans hu)
  exact ht.storesWithin hreg

theorem begin_storesWithin (hr : ReadyToTransfer s) (hn : exec .dcBegin s = .next t) :
    StoresWithin initialisedRegisters s.slave t.slave := by
  obtain ⟨u, hu, ⟨why, -, -, ht⟩ | ⟨e, -, -, ht⟩⟩ := begin_ready hr
  · cases hn.symm.trans hu
    exact ht.storesWithin (by decide)
  · cases hn.symm.trans hu
    exact ht.storesWithin

/-- A command that does not transfer leaves the slave as it was. -/
theorem slave_of_local {i : Instr} (hb : s.busy = false) (ht : transfers i = false)
    (hn : exec i s = .next t) : t.slave = s.slave := by
  rcases exec_local hb ht with ⟨-, -, h⟩ | ⟨-, -, h⟩ | ⟨us, -, h⟩ | ⟨-, r, -, h⟩ <;>
    cases hn.symm.trans h <;> rfl

/-- A command that transfers stores to its own registers only (R52). -/
theorem transfer_storesWithin (hr : ReadyToTransfer s) {i : Instr} (ht : transfers i = true)
    (hn : exec i s = .next t) : StoresWithin (storedRegisters i) s.slave t.slave := by
  cases i with
  | beBegin => cases ht
  | beSethp us => cases ht
  | beProbe addr => exact probe_storesWithin hr hn
  | beWr8 addr reg val => exact write_storesWithin hr (List.mem_singleton_self reg) hn
  | beRd8 addr reg nd =>
    cases nd with
    | true => cases ht
    | false => exact read_storesWithin hr hn
  | dcBegin => exact begin_storesWithin hr hn
  | dcSellib id => exact controllerStore_storesWithin hr rfl (List.mem_singleton_self _) hn
  | dcSetmode mode => exact controllerStore_storesWithin hr rfl (List.mem_singleton_self _) hn
  | dcSetwave slot effect =>
    have hslot : slot.toNat ≤ 7 := of_decide_eq_true ht
    have hi : controllerStore (.dcSetwave slot effect) = some (waveRegister slot, effect) := if_pos hslot
    exact controllerStore_storesWithin hr hi (by simp [storedRegisters, hslot]) hn
  | dcGo => exact controllerStore_storesWithin hr rfl (List.mem_singleton_self _) hn
  | dcRdstatus => exact read_storesWithin hr hn
  | dcIsconn => exact probe_storesWithin hr hn

theorem exec_storesWithin (hr : Ready s) {i : Instr} (hn : exec i s = .next t) :
    StoresWithin (storedRegisters i) s.slave t.slave := by
  cases ht : transfers i with
  | false => rw [slave_of_local hr.idle ht hn]; exact .refl
  | true =>
    cases hl : linesIdle s with
    | true => exact transfer_storesWithin ⟨hr, hl⟩ ht hn
    | false => rw [exec_notBegun hr.idle ht hl] at hn; cases hn

end frames

/-- Settles O57: a command's stores are those of its frames, and each frame's register is the command's. -/
theorem storesOnlyToTheCommandsRegisters : Obligations.StoresOnlyToTheCommandsRegisters := by
  intro i s t r hr hv hm hn
  obtain ⟨r', hv', hd, -, hq⟩ := exec_storesWithin hr hn r hv hm
  exact ⟨r', hv', hd, hq⟩

/-! ### `DC.BEGIN` and the reference slave's registers -/

/-- A register file after bytes were written to registers one after another (R64). -/
def RefSlave.putAll (ro : List Byte) (m : Memory) (ws : List (Byte × Byte)) : Memory :=
  ws.foldl (fun m w => RefSlave.put ro m w.1 w.2) m

theorem putAll_append (ro : List Byte) (m : Memory) (ws ws' : List (Byte × Byte)) :
    RefSlave.putAll ro m (ws ++ ws') = RefSlave.putAll ro (RefSlave.putAll ro m ws) ws' :=
  List.foldl_append ..

/-- What register `q` holds after the writes `ws`, all to writable registers, when it held `old`. -/
def lastWritten (ws : List (Byte × Byte)) (q old : Byte) : Byte :=
  ws.foldl (fun d w => if q = w.1 then w.2 else d) old

theorem lastWritten_of_not_mem {ws : List (Byte × Byte)} {q : Byte} (h : q ∉ ws.map Prod.fst) (old : Byte) :
    lastWritten ws q old = old := by
  induction ws generalizing old with
  | nil => rfl
  | cons w ws ih =>
    obtain ⟨hw, hws⟩ : q ≠ w.1 ∧ q ∉ ws.map Prod.fst := by simpa using h
    show lastWritten ws q (if q = w.1 then w.2 else old) = old
    rw [if_neg hw]
    exact ih hws old

section putAll

variable {ro : List Byte} {ws : List (Byte × Byte)} {m : Memory} {q : Byte}

theorem read_putAll (hm : m.wf) (hro : ∀ w ∈ ws, w.1 ∉ ro) (q : Byte) :
    (RefSlave.putAll ro m ws).read q = lastWritten ws q (m.read q) := by
  induction ws generalizing m with
  | nil => rfl
  | cons w ws ih =>
    have hw : (RefSlave.put ro m w.1 w.2).read q = if q = w.1 then w.2 else m.read q := by
      simp [put_read hm, hro w (by simp)]
    exact (ih (put_wf hm w.1 w.2) fun y hy => hro y (by simp [hy])).trans (by rw [hw]; rfl)

theorem read_putAll_of_not_mem (hm : m.wf) (hro : ∀ w ∈ ws, w.1 ∉ ro) (hq : q ∉ ws.map Prod.fst) :
    (RefSlave.putAll ro m ws).read q = m.read q :=
  (read_putAll hm hro q).trans (lastWritten_of_not_mem hq _)

end putAll

/-- The writes of an acknowledged `DC.BEGIN` before its rewrites (R141). -/
def plainWrites (p : Params) : List (Byte × Byte) := (regMode, 0x00) :: bestEffortWrites p

/-- The write of the first rewrite, when register `q` held `old q` (R141, R142). -/
def feedbackWrite (p : Params) (old : Byte → Byte) : Byte × Byte :=
  (regFeedback, force (old regFeedback) (fbMask p) (fbSet p))

/-- The write of the second rewrite, when register `q` held `old q` (R141, R142). -/
def control3Write (p : Params) (old : Byte → Byte) : Byte × Byte :=
  (regControl3, force (old regControl3) (c3Mask p) (c3Set p))

/-- The writes of an acknowledged `DC.BEGIN` in bus order, when register `q` held `old q` before (R141). -/
def initialisingWrites (p : Params) (old : Byte → Byte) : List (Byte × Byte) :=
  plainWrites p ++ [feedbackWrite p old] ++ [control3Write p old]

theorem feedback_not_plain (p : Params) : regFeedback ∉ (plainWrites p).map Prod.fst := by
  show regFeedback ∉ initialisedRegisters.take 9
  decide

theorem control3_not_before (p : Params) (old : Byte → Byte) :
    regControl3 ∉ (plainWrites p ++ [feedbackWrite p old]).map Prod.fst := by
  show regControl3 ∉ initialisedRegisters.take 10
  decide

theorem initialisingWrites_registers (p : Params) (old : Byte → Byte) :
    (initialisingWrites p old).map Prod.fst = initialisedRegisters := rfl

/-- `initialised` is what those writes leave. -/
theorem lastWritten_initialisingWrites (p : Params) (old : Byte → Byte) (q : Byte) :
    lastWritten (initialisingWrites p old) q (old q) = initialised p old q := by
  by_cases hq : q ∈ initialisedRegisters
  · simp only [initialisedRegisters, List.mem_cons, List.not_mem_nil, or_false] at hq
    rcases hq with rfl | rfl | rfl | rfl | rfl | rfl | rfl | rfl | rfl | rfl | rfl <;> rfl
  · rw [lastWritten_of_not_mem (by rwa [initialisingWrites_registers])]
    have hne : ∀ x ∈ initialisedRegisters, q ≠ x := fun x hx e => hq (e ▸ hx)
    rw [initialised, if_neg (hne _ (by decide)), if_neg (hne _ (by decide)), if_neg (hne _ (by decide)),
      if_neg (hne _ (by decide)), if_neg hq]

section initialisation

variable {p : Params} {e : BeginEnds} {r : RefSlave} {v' : Slave}

theorem initialisingWrites_writable (hro : ∀ q, q ∈ initialisedRegisters → q ∉ r.ro) :
    ∀ w ∈ initialisingWrites p r.rf.read, w.1 ∉ r.ro := fun w hw =>
  hro w.1 (initialisingWrites_registers p r.rf.read ▸ List.mem_map_of_mem hw)

/-- A rewrite after writes to other registers: it finds what its register held at first, and its write is
one more of them (R141). -/
theorem rewriteTalk_putAll {r1 : RefSlave} {ws : List (Byte × Byte)} {reg m : Byte} {set : Bool}
    {f : Except Cause Byte} {x : Except Cause Unit} (hm : r.rf.wf) (hro : ∀ w ∈ ws, w.1 ∉ r.ro)
    (hreg : reg ∉ ws.map Prod.fst) (hh : r.hears p.devAddr = true) (hd : r.sameDevice r1)
    (hrf : r1.rf = RefSlave.putAll r.ro r.rf ws)
    (h : RewriteTalk p reg m set f x (.reference r1) v') :
    f = .ok (r.rf.read reg) ∧ x = .ok () ∧
      ∃ r', v' = .reference r' ∧ r.sameDevice r' ∧ r'.ptr = reg ∧
        r'.rf = RefSlave.putAll r.ro r.rf (ws ++ [(reg, force (r.rf.read reg) m set)]) := by
  obtain ⟨hf, hx, r', hv, hd', hptr, hrf'⟩ := rewriteTalk_reference ((hd.hears _).trans hh) h
  have found : r1.rf.read reg = r.rf.read reg := by rw [hrf, read_putAll_of_not_mem hm hro hreg]
  rw [found] at hf hrf'
  refine ⟨hf, hx, r', hv, hd.trans hd', hptr, ?_⟩
  rw [hrf', hd.2.2, hrf, putAll_append]
  rfl

/-- A `DC.BEGIN` at a reference slave that hears it: every transaction is acknowledged, the two reads find
what the registers held at first, and the writes reach the register file in bus order (R64, R141). -/
theorem beginTalk_reference (hm : r.rf.wf) (hro : ∀ q, q ∈ initialisedRegisters → q ∉ r.ro)
    (hh : r.hears p.devAddr = true) (he : e.Possible) (h : BeginTalk p e (.reference r) v') :
    e = .allAcked (r.rf.read regFeedback) (r.rf.read regControl3) ∧
      ∃ r', v' = .reference r' ∧ r.sameDevice r' ∧ r'.ptr = regControl3 ∧
        r'.rf = RefSlave.putAll r.ro r.rf (initialisingWrites p r.rf.read) := by
  obtain ⟨best, fb, fbWrite, c3, c3Write⟩ := e
  obtain ⟨v1, v2, v3, hmode, hbest, hfb, hc3⟩ := h
  have before : ∀ w ∈ plainWrites p ++ [feedbackWrite p r.rf.read], w.1 ∉ r.ro := fun w hw =>
    initialisingWrites_writable hro w (List.mem_append_left _ hw)
  obtain ⟨-, r1, rfl, hp1, hs1, ho1, hrf1, -⟩ := writeTalk_reference hmode
  have hd1 : r.sameDevice r1 := ⟨hp1, hs1, ho1⟩
  obtain ⟨rfl, r2, rfl, hd12, hrf2, -⟩ := eachTalk_reference he.count ((hd1.hears _).trans hh) hbest
  have plain : r2.rf = RefSlave.putAll r.ro r.rf (plainWrites p) := by
    rw [hrf2, hrf1, ho1, hh]
    rfl
  obtain ⟨rfl, rfl, r3, rfl, hd3, -, hrf3⟩ := rewriteTalk_putAll hm
    (fun w hw => before w (List.mem_append_left _ hw)) (feedback_not_plain p) hh (hd1.trans hd12) plain hfb
  obtain ⟨rfl, rfl, r4, rfl, hd4, hptr, hrf4⟩ := rewriteTalk_putAll hm before
    (control3_not_before p _) hh hd3 hrf3 hc3
  exact ⟨rfl, r4, rfl, hd4, hptr, hrf4⟩

end initialisation

/-- Settles O59: the gate's end says whether the slave hears; if it does, the writes' effect is
`initialised`. -/
theorem initialisationLeavesTheDefaults : Obligations.InitialisationLeavesTheDefaults := by
  intro s r hr hv hm hro
  obtain ⟨t, hn, ⟨why, -, hc, ht⟩ | ⟨e, he, hc, ht⟩⟩ := begin_ready hr
  · rw [hv] at ht
    obtain ⟨hx, -⟩ := writeTalk_reference ht
    obtain ⟨r', hv', hd, -, -, hq⟩ := writeTalk_registers hm ht
    cases hh : r.hears s.par.devAddr with
    | true => rw [hh] at hx; cases hx
    | false =>
      rw [hh] at hx hq
      cases hx
      exact ⟨t, r', hn, hv', hd, hc.resp, (fun h => by cases h), fun _ => ⟨hc.tr, hq⟩⟩
  · rw [hv] at ht
    have hh : r.hears s.par.devAddr = true := by
      obtain ⟨v1, -, -, hmode, -⟩ := ht
      have hx := (writeTalk_reference hmode).1
      cases h : r.hears s.par.devAddr with
      | true => rfl
      | false => rw [h] at hx; cases hx
    obtain ⟨rfl, r', hv', hd, hptr, hrf⟩ := beginTalk_reference hm hro hh he ht
    refine ⟨t, r', hn, hv', hd, by rw [hh]; exact hc.resp, fun _ => ⟨hptr, hc.tr, fun q => ?_⟩, fun h => ?_⟩
    · rw [hrf, read_putAll hm (initialisingWrites_writable hro), lastWritten_initialisingWrites]
    · rw [hh] at h
      cases h

end Sys2Proof.Machine
end

section
/-! SUPPORT. The family of the encoding: the decoder and the encoder against each other and against the opcode
map (R81, R82, R85, R95, V28). -/

namespace Sys2Proof

/-! ### The decoder reads back what the encoder packed -/

/-- `B` and `C`, which format A needs zero (R81); the next lemmas are the same for the zeros of the others. -/
theorem extract_bc_packWord (o : Byte) (a : BusAddr) (b c : Byte) :
    (packWord o a b c).extractLsb' 0 16 = 0#16 ↔ b = 0#8 ∧ c = 0#8 := by
  simp only [← BitVec.toNat_inj, extract_toNat, packWord_toNat, BitVec.toNat_ofNat]
  omega

theorem extract_za_packWord (o : Byte) (a : BusAddr) (b c : Byte) :
    (packWord o a b c).extractLsb' 16 8 = 0#8 ↔ a = 0#7 := by
  simp only [← BitVec.toNat_inj, extract_toNat, packWord_toNat, BitVec.toNat_ofNat]
  omega

theorem extract_zab_packWord (o : Byte) (a : BusAddr) (b c : Byte) :
    (packWord o a b c).extractLsb' 8 16 = 0#16 ↔ a = 0#7 ∧ b = 0#8 := by
  simp only [← BitVec.toNat_inj, extract_toNat, packWord_toNat, BitVec.toNat_ofNat]
  omega

theorem extract_zabc_packWord (o : Byte) (a : BusAddr) (b c : Byte) :
    (packWord o a b c).extractLsb' 0 24 = 0#24 ↔ a = 0#7 ∧ b = 0#8 ∧ c = 0#8 := by
  simp only [← BitVec.toNat_inj, extract_toNat, packWord_toNat, BitVec.toNat_ofNat]
  omega

/-- `C[7:1]`, which `BE.RD8` needs zero (R81). -/
theorem extract_c71_packWord (o : Byte) (a : BusAddr) (b c : Byte) :
    (packWord o a b c).extractLsb' 1 7 = 0#7 ↔ c.toNat < 2 := by
  simp only [← BitVec.toNat_inj, extract_toNat, packWord_toNat, BitVec.toNat_ofNat]
  omega

/-- `ND` overlays `C[0]` (R81). -/
theorem fieldNd_packWord (o : Byte) (a : BusAddr) (b c : Byte) :
    fieldNd (packWord o a b c) = decide (c.toNat % 2 = 1) := by
  rw [fieldNd, getLsbD_toNat, packWord_toNat, decide_eq_decide]
  omega

/-- `IMM` overlays `B` and `C` (R81). -/
theorem fieldImm_packWord (o : Byte) (a : BusAddr) (us : HalfPeriod) :
    fieldImm (packWord o a (us.extractLsb' 8 8) (us.extractLsb' 0 8)) = us := by
  apply BitVec.eq_of_toNat_eq
  rw [fieldImm, extract_toNat, packWord_toNat]
  simp only [BitVec.extractLsb'_toNat, Nat.shiftRight_eq_div_pow]
  omega

/-- The decoder undoes the encoder: the format of each command finds its zeros zero and its operands in their
fields. -/
theorem decode_encode (i : Instr) : decode (encode i) = .ok i := by
  cases i with
  | beBegin => simp [encode, decode, ifZero, extract_zabc_packWord]
  | beSethp us => simp [encode, decode, ifZero, extract_za_packWord, fieldImm_packWord]
  | beProbe addr => simp [encode, decode, ifZero, extract_bc_packWord]
  | beWr8 addr reg val => simp [encode, decode, ifZero]
  | beRd8 addr reg nd =>
    cases nd <;> simp [encode, decode, ifZero, extract_c71_packWord, fieldNd_packWord]
  | dcBegin => simp [encode, decode, ifZero, extract_zabc_packWord]
  | dcSellib id => simp [encode, decode, ifZero, extract_zab_packWord]
  | dcSetmode mode => simp [encode, decode, ifZero, extract_zab_packWord]
  | dcSetwave slot effect => simp [encode, decode, ifZero, extract_za_packWord]
  | dcGo => simp [encode, decode, ifZero, extract_zabc_packWord]
  | dcRdstatus => simp [encode, decode, ifZero, extract_zabc_packWord]
  | dcIsconn => simp [encode, decode, ifZero, extract_zabc_packWord]

/-- Settles O1: the fields of a packed word are what was packed, and the bits its format needs zero are. -/
theorem decodeOfEncodeIsTheCommand : Obligations.DecodeOfEncodeIsTheCommand := decode_encode

/-- `decode_encode` for a word written out. -/
theorem decode_of_encode_eq {i : Instr} {w : CommandWord} (h : encode i = w) : decode w = .ok i := by
  rw [← h, decode_encode]

/-- Settles O5: each word is the encoding of its command, which the decoder reads back. -/
theorem wordsAsTheSpecWritesThem : Obligations.WordsAsTheSpecWritesThem := by
  refine ⟨?_, ?_, ?_, ?_, ?_, ?_, ?_, ?_, ?_, ?_, ?_, ?_, ?_⟩ <;> exact decode_of_encode_eq (by decide)

/-! ### The decoder and the opcode map -/

/-- What an accepted word has: a row of its operation code with the command's mnemonic, the zeros that row
asks for, and the encoder's bits. -/
theorem decode_ok_row {w : CommandWord} {i : Instr} (hd : decode w = .ok i) :
    ∃ r ∈ opcodeMap, r.mnemonic = i.mnemonic ∧ r.opc = fieldOpc w ∧ w &&& r.format.mustBeZero = 0 ∧
      encode i = w := by
  rcases decode_cases w with ⟨j, r, hr, hj, h⟩ | ⟨hj, -⟩ | ⟨hj, -⟩ <;> rw [hd] at hj <;> cases hj
  exact ⟨r, hr, h⟩

/-- Settles O2: the encoder gives each row's command the bits the row selects. -/
theorem encodeOfDecodedIsTheWord : Obligations.EncodeOfDecodedIsTheWord := by
  intro w i hd
  obtain ⟨r, -, -, -, -, he⟩ := decode_ok_row hd
  exact he

/-- No two rows of R82 have one operation code. -/
theorem opcodeMap_opc_inj : ∀ r ∈ opcodeMap, ∀ q ∈ opcodeMap, q.opc = r.opc → q = r := by decide

section row

variable {r : OpcodeRow} {w : CommandWord}

/-- A word whose operation code is a row's is legal iff it has the zeros that row asks for (R82, R85). -/
theorem wordLegal_of_row (hr : r ∈ opcodeMap) (ho : r.opc = fieldOpc w) :
    wordLegal w = decide (w &&& r.format.mustBeZero = 0) := by
  rw [Bool.eq_iff_iff, decide_eq_true_iff]
  constructor
  · intro h
    obtain ⟨q, hq⟩ := List.length_eq_one_iff.1 (eq_of_beq h)
    obtain ⟨hm, hs⟩ := List.mem_filter.1 (hq ▸ List.mem_singleton_self q)
    obtain ⟨hqo, hz⟩ := (selects_iff hm w).1 hs
    exact opcodeMap_opc_inj q hm r hr (ho.trans hqo) ▸ hz
  · exact Laws.Legal.legal_of_zero hr ho.symm

theorem opcodeListed_of_row (hr : r ∈ opcodeMap) (ho : r.opc = fieldOpc w) : opcodeListed w = true :=
  List.any_eq_true.2 ⟨r, hr, beq_iff_eq.2 ho⟩

/-- R85's second check is about the zeros of the one row of the operation code. -/
theorem reservedBitsZero_of_row (hr : r ∈ opcodeMap) (ho : r.opc = fieldOpc w) :
    reservedBitsZero w = decide (w &&& r.format.mustBeZero = 0) := by
  rw [Bool.eq_iff_iff, decide_eq_true_iff, reservedBitsZero, List.all_eq_true]
  constructor
  · intro h
    simpa [ho, fieldOpc] using h r hr
  · intro hz q hq
    by_cases hqo : q.opc = fieldOpc w
    · rw [opcodeMap_opc_inj r hr q hq (hqo.trans ho.symm)]
      simp [hz]
    · exact Bool.or_eq_true_iff.2 (.inl (bne_iff_ne.2 hqo))

theorem wordLegal_unlisted (h : ∀ r ∈ opcodeMap, r.opc ≠ fieldOpc w) : wordLegal w = false := by
  have none : opcodeMap.filter (·.selects w) = [] :=
    List.filter_eq_nil_iff.2 fun r hr hs => h r hr ((selects_iff hr w).1 hs).1.symm
  rw [wordLegal, none]
  rfl

theorem opcodeListed_unlisted (h : ∀ r ∈ opcodeMap, r.opc ≠ fieldOpc w) : opcodeListed w = false :=
  List.any_eq_false.2 fun r hr he => h r hr (eq_of_beq he)

end row

/-- Settles O3: the row of the word's operation code decides the three checks, or there is no such row. -/
theorem decoderAcceptsExactlyTheLegalWords : Obligations.DecoderAcceptsExactlyTheLegalWords := by
  intro w
  rcases decode_cases w with ⟨i, r, hr, hd, -, ho, hz, -⟩ | ⟨hd, r, hr, ho, hz⟩ | ⟨hd, h⟩
  · simp [hd, wordLegal_of_row hr ho, opcodeListed_of_row hr ho, reservedBitsZero_of_row hr ho, hz]
  · simpa [hd, wordLegal_of_row hr ho, opcodeListed_of_row hr ho, reservedBitsZero_of_row hr ho] using hz
  · simp [hd, wordLegal_unlisted h, opcodeListed_unlisted h]

/-- Settles O4: the row of the word's operation code selects it, and no other row has that code. -/
theorem decodedCommandIsOfTheSelectedRow : Obligations.DecodedCommandIsOfTheSelectedRow := by
  intro w i hd
  obtain ⟨r, hr, hm, ho, hz, -⟩ := decode_ok_row hd
  refine ⟨r, hr, hm, fun q hq => ?_⟩
  rw [selects_iff hq]
  constructor
  · exact fun ⟨hqo, _⟩ => opcodeMap_opc_inj r hr q hq (hqo.symm.trans ho.symm)
  · rintro rfl
    exact ⟨ho.symm, hz⟩

end Sys2Proof
end

section
/-! SUPPORT. The same family in the block: the address byte and the response word (R84, R86), what a step does
with an offered word (R80, R165), the waveform slots (R93, R145), and the lines along a command (R90, R125,
R134). -/

namespace Sys2Proof.Machine

/-! ### The address byte, the response word, and the waveform register -/

/-- A bit of the address byte: the direction stands below the address (R84). -/
theorem getLsbD_addressByte (addr : BusAddr) (read : Bool) (k : Nat) :
    (addressByte addr read).getLsbD k = if k = 0 then read else addr.getLsbD (k - 1) := by
  rw [addressByte, BitVec.getLsbD_append]
  cases k <;> simp

/-- Settles O6, bit by bit. -/
theorem addressByteIsAddressThenDirection : Obligations.AddressByteIsAddressThenDirection := by
  refine ⟨fun addr read => ⟨?_, ?_, ?_⟩, by decide, by decide⟩
  · apply BitVec.eq_of_getLsbD_eq
    intro k hk
    rw [BitVec.getLsbD_extractLsb', getLsbD_addressByte]
    simp [hk]
  · rw [getLsbD_addressByte, if_pos rfl]
  · apply BitVec.eq_of_getLsbD_eq
    intro k hk
    rw [getLsbD_addressByte, BitVec.getLsbD_or, BitVec.getLsbD_shiftLeft, BitVec.getLsbD_setWidth]
    cases k with
    | zero => cases read <;> simp
    | succ j =>
      have hj : j < 8 := by omega
      cases read <;> simp [hk, hj]

/-- A bit of the response word, by the field it stands in (R86). -/
theorem getLsbD_responseWord (r : Resp) (k : Nat) :
    (responseWord r).getLsbD k = if k < 8 then r.data.getLsbD k else decide (k = 8) && r.ok := by
  rw [responseWord, BitVec.getLsbD_append, BitVec.getLsbD_append]
  split
  · rfl
  · rename_i h
    obtain rfl | h8 : k = 8 ∨ 8 < k := by omega
    · simp
    · simp [show ¬ k - 8 < 1 by omega, show k ≠ 8 by omega]

/-- Settles O7, bit by bit. -/
theorem responseWordLayout : Obligations.ResponseWordLayout := by
  refine ⟨fun r => ⟨?_, ?_, ?_⟩, by decide, by decide, by decide⟩
  · apply BitVec.eq_of_getLsbD_eq
    intro k hk
    rw [BitVec.getLsbD_extractLsb', getLsbD_responseWord]
    simp [hk]
  · rw [getLsbD_responseWord]
    rfl
  · apply BitVec.eq_of_getLsbD_eq
    intro k hk
    rw [BitVec.getLsbD_extractLsb', getLsbD_responseWord]
    simp [show ¬ 9 + k < 8 by omega, show 9 + k ≠ 8 by omega]

/-- Settles O9: the sum is at most `0x0B`. -/
theorem waveRegisterFollowsTheSlot : Obligations.WaveRegisterFollowsTheSlot := by
  intro slot h
  rw [waveRegister, BitVec.toNat_add, show (0x04 : Byte).toNat = 4 from rfl]
  omega

/-! ### The offered word -/

theorem step_offered {s : State} {w : CommandWord} {rest : List CommandWord} (hb : s.busy = false)
    (ho : s.offered = w :: rest) : step s = runWord w { s with offered := rest } := by
  simp [step, takeWord, hb, ho]

theorem runWord_ok {w : CommandWord} {i : Instr} (h : decode w = .ok i) (s : State) :
    runWord w s = exec i s := by
  simp [runWord, h]

theorem runWord_illegal {w : CommandWord} (h : wordLegal w = false) (s : State) :
    runWord w s = .next (rejectWord s) := by
  have hd : ¬ ∃ i, decode w = .ok i := by simp [(decoderAcceptsExactlyTheLegalWords w).1, h]
  unfold runWord
  split
  · rename_i i hi
    exact absurd ⟨i, hi⟩ hd
  · rfl

/-- Settles O10: an idle block takes the word, and a decoded word runs its command. -/
theorem stepRunsTheDecodedCommand : Obligations.StepRunsTheDecodedCommand := fun s _ _ _ hb ho hd => by
  rw [step_offered hb ho, runWord_ok hd]

/-- Settles O11: the decoder rejects what the opcode map does not select once. -/
theorem illegalWordAnswersFailure : Obligations.IllegalWordAnswersFailure := fun s _ _ hb ho hl => by
  rw [step_offered hb ho, runWord_illegal hl]
  rfl

theorem tableWord_toNat (w : CommandWord) : tableWord 32 w.toNat = w := by
  simp [tableWord, Nat.mod_eq_of_lt w.isLt]

/-- Settles O14: the word placed first is the command's, and taking it leaves the words that were there. -/
theorem offeredWordIsRunNext : Obligations.OfferedWordIsRunNext := fun s i => by
  rw [State.withFetchWord, tableWord_toNat, step_offered (offerFirst_busy _ s) (offerFirst_offered _ s),
    runWord_ok (decode_encode i)]
  rfl

/-! ### The waveform slots -/

theorem execDcSetwave_beyond {s : State} {slot : Byte} (effect : Byte) (h : 7 < slot.toNat)
    (hb : s.busy = false) :
    exec (.dcSetwave slot effect) s =
      .next (complete respDone (accept (encode (.dcSetwave slot effect)) s)) := by
  simp only [exec, execDcSetwave, if_pos h, runCommand, hb]
  rfl

theorem execDcSetwave_slot (s : State) {slot : Byte} (effect : Byte) (h : slot.toNat ≤ 7) :
    exec (.dcSetwave slot effect) s =
      runTransfer (encode (.dcSetwave slot effect)) (wrDone s.par (waveRegister slot) effect) s := by
  simp only [exec, execDcSetwave, if_neg (Nat.not_lt.2 h)]

/-- Acceptance of `DC.SETWAVE` loads its operands into `B` and `C` (R27, R81). -/
theorem accept_dcSetwave (slot effect : Byte) (s : State) :
    accept (encode (.dcSetwave slot effect)) s =
      { s with opc := 0x13, a := 0, b := slot, c := effect, busy := true, upc := 0 } := by
  simp [accept, encode]

/-- Settles O32: a slot up to 7 is one discarded write, a slot beyond is answered at once. -/
theorem waveformSlotWrite : Obligations.WaveformSlotWrite := by
  refine fun slot effect s => ⟨fun h hr => ?_, fun h hb => ?_⟩
  · rw [execDcSetwave_slot s effect h]
    exact wrDone_completes hr (waveRegister slot) effect
  · rw [execDcSetwave_beyond effect h hb, accept_dcSetwave]
    rfl

/-! ### The lines along a command -/

/-- The observer goes from idle lines to idle lines along the trace, with every sample on a released line, and
the trace, if any, ends with a stop condition (R90, R125, R134). -/
def ClosedTrace (ops : List MicroOp) : Prop :=
  (∃ es, Seen Watch.idle ops es Watch.idle) ∧ (ops = [] ∨ stopOps <:+ ops)

theorem closedTrace_nil : ClosedTrace [] := ⟨⟨[], rfl, rfl, trivial⟩, .inl rfl⟩

/-- A frame before a closed trace. -/
theorem ClosedTrace.cons {x ops : List MicroOp} (hs : ∃ es, Seen Watch.idle x es Watch.idle)
    (hx : stopOps <:+ x) (h : ClosedTrace ops) : ClosedTrace (x ++ ops) := by
  obtain ⟨es, hs⟩ := hs
  obtain ⟨⟨fs, hf⟩, he⟩ := h
  refine ⟨⟨_, hs.append hf⟩, .inr ?_⟩
  rcases he with rfl | he
  · rwa [List.append_nil]
  · exact he.trans (List.suffix_append x ops)

theorem stop_suffix_write (addr : BusAddr) (reg val : Byte) (x : Except Cause Unit) :
    stopOps <:+ writeOps addr reg val x := by
  unfold writeOps
  split <;> exact List.suffix_append ..

theorem stop_suffix_read (addr : BusAddr) (reg : Byte) (x : Except Cause Byte) :
    stopOps <:+ readOps addr reg x := by
  unfold readOps
  split <;> exact List.suffix_append ..

/-- Whatever a write frame's end is called, its trace is that of one of the four ends there are. -/
theorem seen_write_any (addr : BusAddr) (reg val : Byte) (x : Except Cause Unit) :
    ∃ es, Seen Watch.idle (writeOps addr reg val x) es Watch.idle := by
  unfold writeOps
  split
  · exact ⟨_, seen_write addr reg val (x := .error .nackAddrW) rfl⟩
  · exact ⟨_, seen_write addr reg val (x := .error .nackReg) rfl⟩
  · exact ⟨_, seen_write addr reg val (x := .error .nackData) rfl⟩
  · exact ⟨_, seen_write addr reg val (x := .ok ()) rfl⟩

/-- The same for a read frame. -/
theorem seen_read_any (addr : BusAddr) (reg : Byte) (x : Except Cause Byte) :
    ∃ es, Seen Watch.idle (readOps addr reg x) es Watch.idle := by
  unfold readOps
  split
  · exact ⟨_, seen_read addr reg (x := .error .nackAddrW) rfl⟩
  · exact ⟨_, seen_read addr reg (x := .error .nackReg) rfl⟩
  · exact ⟨_, seen_read addr reg (x := .error .nackAddrR) rfl⟩
  · rename_i d
    exact ⟨_, seen_read addr reg (x := .ok d) rfl⟩

/-- Complete frames leave the observer idle between one and the next. -/
theorem Frames.closedTrace {ops : List MicroOp} (h : Frames ops) : ClosedTrace ops := by
  induction h with
  | none => exact closedTrace_nil
  | probe addr k _ ih => exact ih.cons ⟨_, seen_probe addr k⟩ (List.suffix_append ..)
  | write addr reg val x _ ih => exact ih.cons (seen_write_any addr reg val x) (stop_suffix_write addr reg val x)
  | read addr reg x _ ih => exact ih.cons (seen_read_any addr reg x) (stop_suffix_read addr reg x)

/-- What an idle command on idle lines leaves: idle lines again, after a closed trace. -/
theorem exec_closedTrace {i : Instr} {s t : State} (hr : ReadyToTransfer s) (hn : exec i s = .next t) :
    linesIdle t = true ∧ ∃ ops, t.tr = ops.reverse ++ s.tr ∧ ClosedTrace ops := by
  obtain ⟨⟨hb, hnone⟩, hl⟩ := hr
  rcases exec_next hb hn with ⟨-, h⟩ | ⟨-, h⟩ | ⟨-, ⟨hu, -⟩, -⟩ | ⟨us, -, rfl⟩ | ⟨r, -, rfl⟩
  · obtain ⟨ops, r, hc, hf, -⟩ := h.done
    refine ⟨?_, ops, hc.tr, hf.closedTrace⟩
    rw [linesIdle_iff, hc.sclm, hc.sclo, hc.sdam, ← linesIdle_iff]
    exact hl
  · exact absurd h (not_hungFrom hnone)
  · rw [(linesIdle_iff.1 hl).1] at hu
    cases hu
  · exact ⟨hl, [], rfl, closedTrace_nil⟩
  · exact ⟨hl, [], rfl, closedTrace_nil⟩

/-- Settles O39: a command's micro-ops are complete frames, and the observer is idle between frames. -/
theorem samplesFindTheLineReleased : Obligations.SamplesFindTheLineReleased := by
  intro i s t hr hn
  obtain ⟨hl, ops, ht, ⟨es, -, -, hs⟩, he⟩ := exec_closedTrace hr hn
  exact ⟨hl, ops, ht, hs, he.imp_right fun ⟨frames, e⟩ => ⟨frames, e.symm⟩⟩

end Sys2Proof.Machine
end

section
/-! SUPPORT. The family of the bus engine (R87, R110 to R118, R132): the frames of its commands and what they
count, when a command is refused, that an accepted one completes, and what scripted answers make of it. -/

namespace Sys2Proof.Machine

/-! ### The frames of single commands -/

/-- Settles O27: the probe frame, without the slave's part. -/
theorem probeAnswersTheAcknowledgement : Obligations.ProbeAnswersTheAcknowledgement := by
  intro addr s hr
  obtain ⟨k, t, hn, hc, -, hk⟩ := probe_ready hr addr
  exact ⟨k, t, hn, hc, hk⟩

/-- Settles O28: the write frame, without the slave's part. -/
theorem registerWriteSequence : Obligations.RegisterWriteSequence := by
  intro addr reg val s hr
  obtain ⟨x, t, hn, he, hc, -, hk⟩ := write_ready hr addr reg val
  exact ⟨x, t, he, hn, hc, hk⟩

/-- Settles O33: the read frame for `STATUS` of `DEVADDR`, without the slave's part. -/
theorem statusReadSequence : Obligations.StatusReadSequence := by
  intro s hr
  obtain ⟨x, t, hn, he, hc, -, hk⟩ := read_ready hr s.par.devAddr regStatus
  exact ⟨x, t, he, hn, hc, hk⟩

/-- Acceptance of `BE.RD8` without a destination loads its operands into `A` and `B`, and `ND` into `C`
(R27, R81). -/
theorem accept_beRd8_nullDest (addr : BusAddr) (reg : Byte) (s : State) :
    accept (encode (.beRd8 addr reg true)) s =
      { s with opc := 0x04, a := addr, b := reg, c := 0x01, busy := true, upc := 0 } := by
  simp [accept, encode]

/-- Settles O30: the completed state, with the latches' fields written out. -/
theorem nullDestinationFailsWithoutBusActivity : Obligations.NullDestinationFailsWithoutBusActivity := by
  intro addr reg s hb
  rw [execBeRd8_nullDest addr reg hb, accept_beRd8_nullDest]
  rfl

/-! ### Micro-ops, waits and samples (R132) -/

/-- A trace has these numbers of micro-ops, waits and samples. -/
def Counts (ops : List MicroOp) (c : Nat × Nat × Nat) : Prop := (ops.length, waits ops, samples ops) = c

theorem Counts.append {x y : List MicroOp} {n w k n' w' k' : Nat} (h : Counts x (n, w, k))
    (h' : Counts y (n', w', k')) : Counts (x ++ y) (n + n', w + w', k + k') := by
  simp only [Counts, Prod.mk.injEq, List.length_append, waits_append, samples_append] at *
  omega

theorem counts_start : Counts startOps (5, 1, 0) := rfl

theorem counts_stop : Counts stopOps (5, 2, 0) := rfl

theorem counts_wbyte (b : Byte) (l : Bool) : Counts (wbyteOps b l) (46, 18, 1) := by
  simp [Counts, wbyteOps_counts]

theorem counts_rbyte (k : Bool) (d : Byte) : Counts (rbyteOps k d) (47, 18, 8) := by
  simp [Counts, rbyteOps_counts]

theorem counts_probe (addr : BusAddr) (k : Bool) : Counts (probeOps addr k) (56, 21, 1) :=
  (counts_start.append (counts_wbyte ..)).append counts_stop

/-- A start condition and two bytes: how a write or a read frame begins once its address is acknowledged. -/
theorem counts_opening (a b : Byte) (l l' : Bool) :
    Counts (startOps ++ wbyteOps a l ++ wbyteOps b l') (97, 37, 2) :=
  (counts_start.append (counts_wbyte ..)).append (counts_wbyte ..)

/-- The numbers of a write frame, by how it ended (R132). -/
def writeCounts : Except Cause Unit → Nat × Nat × Nat
  | .error .nackAddrW => (56, 21, 1)
  | .error .nackReg => (102, 39, 2)
  | _ => (148, 57, 3)

theorem counts_write (addr : BusAddr) (reg val : Byte) {x : Except Cause Unit} (hx : writeEnd x = true) :
    Counts (writeOps addr reg val x) (writeCounts x) := by
  rcases writeEnd_cases hx with rfl | rfl | rfl | rfl
  · exact (counts_start.append (counts_wbyte ..)).append counts_stop
  · exact (counts_opening ..).append counts_stop
  · exact ((counts_opening ..).append (counts_wbyte ..)).append counts_stop
  · exact ((counts_opening ..).append (counts_wbyte ..)).append counts_stop

/-- The numbers of a read frame, by how it ended (R132). -/
def readCounts : Except Cause Byte → Nat × Nat × Nat
  | .error .nackAddrW => (56, 21, 1)
  | .error .nackReg => (102, 39, 2)
  | .error _ => (153, 58, 3)
  | .ok _ => (200, 76, 11)

theorem counts_read (addr : BusAddr) (reg : Byte) {x : Except Cause Byte} (hx : readEnd x = true) :
    Counts (readOps addr reg x) (readCounts x) := by
  have again (a b c : Byte) (l : Bool) :=
    ((counts_opening a b false false).append counts_start).append (counts_wbyte c l)
  rcases readEnd_cases hx with rfl | rfl | rfl | ⟨d, rfl⟩
  · exact (counts_start.append (counts_wbyte ..)).append counts_stop
  · exact (counts_opening ..).append counts_stop
  · exact (again ..).append counts_stop
  · exact ((again ..).append (counts_rbyte false d)).append counts_stop

/-- Writes that are all acknowledged. -/
theorem counts_each_acked (addr : BusAddr) (ws : List (Byte × Byte)) :
    Counts (eachOps addr (ws.zip (List.replicate ws.length (.ok ()))))
      (148 * ws.length, 57 * ws.length, 3 * ws.length) := by
  induction ws with
  | nil => rfl
  | cons w ws ih =>
    have h := (counts_write addr w.1 w.2 (x := .ok ()) rfl).append ih
    rwa [Nat.add_comm 148, Nat.add_comm 57, Nat.add_comm 3] at h

theorem counts_rewrite_acked (p : Params) (r m : Byte) (set : Bool) (d : Byte) :
    Counts (rewriteOps p r m set (.ok d) (.ok ())) (348, 133, 14) :=
  (counts_read p.devAddr r (x := .ok d) rfl).append (counts_write p.devAddr r _ (x := .ok ()) rfl)

theorem counts_begin_acked (p : Params) (f c : Byte) :
    Counts (beginOps p (.allAcked f c)) (2028, 779, 55) := by
  have gate : Counts (writeOps p.devAddr regMode 0x00 (.ok ())) (148, 57, 3) := counts_write _ _ _ rfl
  have best : Counts (eachOps p.devAddr ((bestEffortWrites p).zip (List.replicate 8 (.ok ()))))
      (1184, 456, 24) := counts_each_acked p.devAddr (bestEffortWrites p)
  exact ((gate.append best).append (counts_rewrite_acked ..)).append (counts_rewrite_acked ..)

/-- Settles O37: the counts add up along each frame. -/
theorem countsOfTheSequences : Obligations.CountsOfTheSequences :=
  ⟨counts_start, counts_stop, counts_wbyte, counts_rbyte, counts_probe,
    fun addr reg val _ hx => counts_write addr reg val hx, fun addr reg _ hx => counts_read addr reg hx,
    counts_begin_acked⟩

/-! ### Refusal and completion -/

/-- What an idle block answers a command: one of the two refusals, each with its reason, or a next state
within the precondition (R110, R166). -/
theorem exec_outcome {i : Instr} {s : State} (hb : s.busy = false) :
    (transfers i = true ∧ linesIdle s = false ∧ exec i s = .refused .notBegun) ∨
      (i = .beBegin ∧ ¬ linesUnconfigured s ∧ exec i s = .refused .begunTwice) ∨
      precondition i s ∧ ∃ t, exec i s = .next t := by
  cases ht : transfers i with
  | true =>
    cases hl : linesIdle s with
    | false => exact .inl ⟨rfl, rfl, exec_notBegun hb ht hl⟩
    | true =>
      have hp : precondition i s := ⟨fun _ => hl, fun h => by subst h; cases ht⟩
      rcases exec_transfers hb ht hl with ⟨t, h, -⟩ | ⟨t, h, -⟩ <;> exact .inr (.inr ⟨hp, t, h⟩)
  | false =>
    have transferless : transfers i = true → linesIdle s = true := fun h => by rw [ht] at h; cases h
    rcases exec_local hb ht with ⟨-, hu, h⟩ | ⟨hi, hu, h⟩ | ⟨us, hi, h⟩ | ⟨hi, r, -, h⟩
    · exact .inr (.inr ⟨⟨transferless, fun _ => hu⟩, _, h⟩)
    · exact .inr (.inl ⟨hi, hu, h⟩)
    · exact .inr (.inr ⟨⟨transferless, fun e => by rw [hi] at e; cases e⟩, _, h⟩)
    · exact .inr (.inr ⟨⟨transferless, fun e => absurd e hi⟩, _, h⟩)

/-- Settles O41: the three outcomes exclude one another. -/
theorem refusedExactlyOutsideThePrecondition : Obligations.RefusedExactlyOutsideThePrecondition := by
  intro i s hb
  rcases exec_outcome (i := i) hb with ⟨ht, hl, h⟩ | ⟨rfl, hu, h⟩ | ⟨⟨hp, hq⟩, t, h⟩
  · have hi : i ≠ .beBegin := fun e => by subst e; cases ht
    simp [h, ht, hl, hi]
  · simp [h, hu, transfers]
  · have hl : ¬ (transfers i = true ∧ linesIdle s = false) := fun ⟨ht, hl⟩ => by
      rw [hp ht] at hl; cases hl
    have hu : ¬ (i = .beBegin ∧ ¬ linesUnconfigured s) := fun ⟨hi, hu⟩ => hu (hq hi)
    simp [h, hl, hu]

/-- A next state of an idle block whose samples complete is a completion, within R132's bounds. -/
theorem exec_completes {i : Instr} {s t : State} (hr : Ready s) (hn : exec i s = .next t) :
    ∃ ops, t.busy = false ∧ t.upc = 0 ∧ t.tr = ops.reverse ++ s.tr ∧ t.t = s.t + waits ops * s.hp.toNat ∧
      Within 2028 779 55 ops := by
  obtain ⟨hb, hnone⟩ := hr
  have within_nil : Within 2028 779 55 [] := ⟨by decide, by decide, by decide⟩
  rcases exec_next hb hn with ⟨-, h⟩ | ⟨-, h⟩ | ⟨-, -, rfl⟩ | ⟨us, -, rfl⟩ | ⟨r, -, rfl⟩
  · obtain ⟨ops, r, hc, -, hw, -⟩ := h.done
    exact ⟨ops, hc.busy, hc.upc, hc.tr, hc.time, hw⟩
  · exact absurd h (not_hungFrom hnone)
  · exact ⟨[.sclHi, .sdaRel], rfl, rfl, rfl, by simp [waits],
      by decide, by decide, by decide⟩
  · exact ⟨[], rfl, rfl, (no_ops_no_time s).1, (no_ops_no_time s).2, within_nil⟩
  · exact ⟨[], rfl, rfl, (no_ops_no_time s).1, (no_ops_no_time s).2, within_nil⟩

/-- Settles O43: within its precondition a command is not refused, and without a hang it completes. -/
theorem acceptedCommandsComplete : Obligations.AcceptedCommandsComplete := by
  intro i s hr ⟨hlines, hbegin⟩
  rcases exec_outcome (i := i) hr.idle with ⟨ht, hl, -⟩ | ⟨hi, hu, -⟩ | ⟨-, t, hn⟩
  · rw [hlines ht] at hl
    cases hl
  · exact absurd (hbegin hi) hu
  · obtain ⟨ops, hb, hu, htr, htime, hl, hw, hk⟩ := exec_completes hr hn
    exact ⟨t, ops, hn, hb, hu, htr, hl, hw, hk, htime⟩

/-! ### Scripted answers -/

section script

variable {s : State} {addr : BusAddr} {reg val : Byte} {v v' : Slave}

/-- `BE.WR8` when the slave's answers leave its frame one end. -/
theorem beWr8_of_talk {x : Except Cause Unit} (hr : ReadyToTransfer s) (hv : s.slave = v)
    (h : ∀ {y u}, WriteTalk addr reg val y v u → y = x ∧ u = v') :
    ∃ t, exec (.beWr8 addr reg val) s = .next t ∧ t.slave = v' ∧ t.resp = respOfWrite x ∧
      t.tr = (writeOps addr reg val x).reverse ++ s.tr := by
  obtain ⟨y, t, hn, -, hc, ht, -⟩ := write_ready hr addr reg val
  rw [hv] at ht
  obtain ⟨rfl, hv'⟩ := h ht
  exact ⟨t, hn, hv', hc.resp, hc.tr⟩

/-- `BE.RD8` when the slave's answers leave its frame one end. -/
theorem beRd8_of_talk {x : Except Cause Byte} (hr : ReadyToTransfer s) (hv : s.slave = v)
    (h : ∀ {y u}, ReadTalk addr reg y v u → y = x ∧ u = v') :
    ∃ t, exec (.beRd8 addr reg false) s = .next t ∧ t.slave = v' ∧ t.resp = respOfRead x ∧
      t.tr = (readOps addr reg x).reverse ++ s.tr := by
  obtain ⟨y, t, hn, -, hc, ht, -⟩ := read_ready hr addr reg
  rw [hv] at ht
  obtain ⟨rfl, hv'⟩ := h ht
  exact ⟨t, hn, hv', hc.resp, hc.tr⟩

/-- `DC.BEGIN` when the slave's answers cut its first write short (R141). -/
theorem dcBegin_of_failed_talk {why : Cause} (hr : ReadyToTransfer s) (hv : s.slave = v)
    (h : ∀ {y u}, WriteTalk s.par.devAddr regMode 0x00 y v u → y = .error why ∧ u = v') :
    ∃ t, exec .dcBegin s = .next t ∧ t.slave = v' ∧ t.resp = respFail ∧
      t.tr = (writeOps s.par.devAddr regMode 0x00 (.error why)).reverse ++ s.tr := by
  obtain ⟨t, hn, ⟨why', -, hc, ht⟩ | ⟨e, -, -, v1, -, -, hmode, -⟩⟩ := begin_ready hr
  · rw [hv] at ht
    obtain ⟨hy, hv'⟩ := h ht
    cases hy
    exact ⟨t, hn, hv', hc.resp, hc.tr⟩
  · rw [hv] at hmode
    cases (h hmode).1

/-- `DC.BEGIN` when the slave's answers let its first write succeed (R141, R172). -/
theorem dcBegin_of_acked_talk (hr : ReadyToTransfer s) (hv : s.slave = v)
    (h : ∀ {y u}, WriteTalk s.par.devAddr regMode 0x00 y v u → y = .ok ()) :
    ∃ t, exec .dcBegin s = .next t ∧ t.resp = respDone := by
  obtain ⟨t, hn, ⟨why, -, -, ht⟩ | ⟨e, -, hc, -⟩⟩ := begin_ready hr
  · rw [hv] at ht
    cases h ht
  · exact ⟨t, hn, hc.resp⟩

end script

/-- Settles O50: the script fixes the end of either frame. -/
theorem firstMissingAcknowledgementEndsTheFrame : Obligations.FirstMissingAcknowledgementEndsTheFrame :=
  fun _ _ _ _ _ hr =>
    ⟨fun hv => ⟨beWr8_of_talk hr hv writeTalk_nackAddrW, beRd8_of_talk hr hv readTalk_nackAddrW⟩,
      fun hv => ⟨beWr8_of_talk hr hv writeTalk_nackReg, beRd8_of_talk hr hv readTalk_nackReg⟩,
      fun hv => ⟨beWr8_of_talk hr hv writeTalk_third, beRd8_of_talk hr hv readTalk_nackAddrR⟩⟩

/-- Settles O51: three acknowledgements leave the write frame its complete end. -/
theorem acknowledgedWriteSendsItsBytes : Obligations.AcknowledgedWriteSendsItsBytes :=
  fun _ _ _ _ _ hr hv => beWr8_of_talk hr hv writeTalk_third

/-- Settles O52: three acknowledgements and the byte's bits leave the read frame its complete end. -/
theorem readReturnsTheDrivenByte : Obligations.ReadReturnsTheDrivenByte :=
  fun _ _ _ _ _ hr hv => beRd8_of_talk hr hv readTalk_ok

/-- Settles O53: the script fixes the end of the first write, the only gate. -/
theorem initialisationReportsOnlyItsFirstWrite : Obligations.InitialisationReportsOnlyItsFirstWrite :=
  fun _ _ hr =>
    ⟨fun hv => dcBegin_of_failed_talk hr hv writeTalk_nackAddrW,
      fun hv => dcBegin_of_failed_talk hr hv writeTalk_nackReg,
      fun hv => dcBegin_of_failed_talk hr hv writeTalk_third,
      fun hv => dcBegin_of_acked_talk hr hv fun h => (writeTalk_third h).1⟩

end Sys2Proof.Machine
end

section
/-! SUPPORT. The family of the bit level (R120 to R131): the clock micro-ops, the wait, the byte write, the
clock phases inside a byte, and the probe frame of `DC.ISCONN` (R149). -/

namespace Sys2Proof.Machine

/-! ### The byte write and the connection probe -/

/-- `STALL_MODEL = none`: completed samples are not counted down (R164; log entry 4). -/
theorem countSample_none {s : State} (hn : s.par.stallModel = .none) : countSample s = s.hangAfter := by
  simp [countSample, hn]

/-- Settles O23: `wbyte_spec` without its hang, with the sample's question from `wbyte_asks`. -/
theorem byteWriteSequence : Obligations.ByteWriteSequence := by
  intro b s hn
  obtain ⟨k, t, hk, hr, -, hc, hd, hsh, -, hack, hg, -⟩ :=
    (ends_mono (wbyte_spec b s) (fun _ _ h => h) fun _ h => h.1).completes hn
  obtain ⟨before, htr, hans⟩ := wbyte_asks hk
  exact ⟨k, t, before, hk, hr, htr, hans, hc, hd, hsh, hack, hg.trans (countSample_none hn)⟩

/-- Settles O34: the probe frame for `DEVADDR`, without the slave's part. -/
theorem connectionProbeSequence : Obligations.ConnectionProbeSequence := by
  intro s hr
  obtain ⟨k, t, hn, hc, -, hk⟩ := probe_ready hr s.par.devAddr
  exact ⟨k, t, hn, hc, hk⟩

/-! ### The clock line and the wait -/

/-- On a configured pin the clock wire carries `SCLO` (R23). -/
theorem sclWire_out {s : State} (h : s.sclm = .out) : sclWire s = some s.sclo := by
  simp [sclWire, h]

/-- Settles O17: the micro-ops by their definitions, the wire by the mode (R23). -/
theorem clockMicroOpsDriveTheClock : Obligations.ClockMicroOpsDriveTheClock := fun _ =>
  ⟨rfl, rfl, sclWire_out⟩

/-- Settles O19: the micro-op is this state by its definition. -/
theorem waitLastsOneHalfPeriod : Obligations.WaitLastsOneHalfPeriod := fun _ => rfl

/-! ### The clock phases inside a byte (R131) -/

/-- Begun just after a clock micro-op, the trace holds `n` clock phases of one wait each and ends with no
wait pending, whatever follows it. -/
def OneWaitPhases (n : Nat) (ops : List MicroOp) : Prop :=
  ∀ rest, phaseWaits 0 (ops ++ rest) = List.replicate n 1 ++ phaseWaits 0 rest

theorem OneWaitPhases.append {x y : List MicroOp} {n m : Nat} (h : OneWaitPhases n x)
    (k : OneWaitPhases m y) : OneWaitPhases (n + m) (x ++ y) := fun rest => by
  rw [List.append_assoc, h, k, ← List.append_assoc, List.replicate_append_replicate]

theorem OneWaitPhases.phaseWaits_eq {ops : List MicroOp} {n : Nat} (h : OneWaitPhases n ops) :
    phaseWaits 0 ops = List.replicate n 1 := by
  simpa [phaseWaits] using h []

/-- Cells of two phases each have two phases for each cell. -/
theorem oneWaitPhases_cells {cell : Nat → List MicroOp} (h : ∀ i, OneWaitPhases 2 (cell i))
    (is : List Nat) : OneWaitPhases (2 * is.length) (is.flatMap cell) := by
  induction is with
  | nil => exact fun _ => rfl
  | cons i is ih => simpa [Nat.mul_add, Nat.add_comm] using (h i).append ih

theorem oneWaitPhases_writeCell (b : Byte) (i : Nat) : OneWaitPhases 2 (writeCellOps b i) := fun _ => by
  unfold writeCellOps bitOp
  split <;> rfl

theorem oneWaitPhases_readCell (d : Byte) (i : Nat) : OneWaitPhases 2 (readCellOps d i) := fun _ => rfl

theorem oneWaitPhases_ackCell (level : Bool) : OneWaitPhases 2 (ackCellOps level) := fun _ => rfl

theorem oneWaitPhases_masterAck (sendAck : Bool) : OneWaitPhases 2 (masterAckOps sendAck) := fun _ => by
  cases sendAck <;> rfl

/-- The release before the cells of a byte read is in no clock phase of its own (R130). -/
theorem oneWaitPhases_release : OneWaitPhases 0 [.sdaRel] := fun _ => rfl

theorem oneWaitPhases_wbyte (b : Byte) (level : Bool) : OneWaitPhases 18 (wbyteOps b level) :=
  (oneWaitPhases_cells (oneWaitPhases_writeCell b) bitOrder).append (oneWaitPhases_ackCell level)

theorem oneWaitPhases_rbyte (sendAck : Bool) (d : Byte) : OneWaitPhases 18 (rbyteOps sendAck d) :=
  (oneWaitPhases_release.append (oneWaitPhases_cells (oneWaitPhases_readCell d) bitOrder)).append
    (oneWaitPhases_masterAck sendAck)

/-- Settles O38: nine cells of two phases each, written or read. -/
theorem clockPhasesOfAByteLastOneHalfPeriod : Obligations.ClockPhasesOfAByteLastOneHalfPeriod :=
  ⟨fun b l => (oneWaitPhases_wbyte b l).phaseWaits_eq, fun k d => (oneWaitPhases_rbyte k d).phaseWaits_eq⟩

end Sys2Proof.Machine
end

section
/-! SUPPORT. The family of the device controller (R140 to R142): the forced bit, the initialisation sequence,
and the Bus Engine command that each single-transaction command is on the wire. -/

namespace Sys2Proof.Machine

/-! ### The forced bit (R142) -/

/-- A bit of the forced byte: the set value under the mask, the old bit elsewhere. -/
theorem getLsbD_force (v m : Byte) (s : Bool) {i : Nat} (hi : i < 8) :
    (force v m s).getLsbD i = if m.getLsbD i then s else v.getLsbD i := by
  rw [force, BitVec.getLsbD_or, BitVec.getLsbD_and, BitVec.getLsbD_not]
  cases s with
  | false => cases m.getLsbD i <;> simp [hi]
  | true =>
    simp only [if_true]
    cases m.getLsbD i <;> simp [hi]

theorem force_force (v m : Byte) (s : Bool) : force (force v m s) m s = force v m s := by
  apply BitVec.eq_of_getLsbD_eq
  intro i hi
  rw [getLsbD_force _ m s hi, getLsbD_force v m s hi]
  split <;> rfl

/-- A mask has the one bit its number names (R7). -/
theorem getLsbD_bitMask (i : Fin 8) (j : Nat) : (bitMask i).getLsbD j = decide (j = i.val) := by
  rw [bitMask, ← BitVec.twoPow_eq, BitVec.getLsbD_twoPow]
  simp [eq_comm]

theorem bitMask_one_bit (i : Fin 8) :
    ∃ k, k < 8 ∧ ∀ j, j < 8 → (bitMask i).getLsbD j = decide (j = k) :=
  ⟨i.val, i.isLt, fun j _ => getLsbD_bitMask i j⟩

/-- Settles O8: `force` bit by bit, and both masks are `bitMask` of some bit's number. -/
theorem forceSetsTheMaskedBits : Obligations.ForceSetsTheMaskedBits :=
  ⟨fun v m s _ hi => getLsbD_force v m s hi, force_force, fun _ => ⟨bitMask_one_bit _, bitMask_one_bit _⟩⟩

/-! ### `DC.BEGIN` -/

/-- Settles O35: `begin_ready` without the slave's part. -/
theorem initialisationSequence : Obligations.InitialisationSequence := by
  intro s hr
  obtain ⟨t, hn, ⟨why, hw, hc, -⟩ | ⟨e, he, hc, -⟩⟩ := begin_ready hr
  · exact ⟨t, hn, .inl ⟨why, hw, hc⟩⟩
  · exact ⟨t, hn, .inr ⟨e, he, hc⟩⟩

/-! ### Single transactions are Bus Engine frames (R140) -/

section wire

variable {s : State} {i j : Instr} {answer : Resp → Resp}

/-- Commands that run alike from one state do the same on the wire, once the first is known to transfer:
from a ready state it is not refused and does not hang. -/
theorem sameOnTheWire_of_alike (hr : ReadyToTransfer s) (ht : transfers i = true)
    (h : OutcomesAlike (fun r r' => r = answer r') (exec i s) (exec j s) s s) :
    SameOnTheWire i j answer s := by
  have hp : precondition i s := ⟨fun _ => hr.2, fun e => by subst e; cases ht⟩
  obtain ⟨t, ops, hn, hidle, -⟩ := acceptedCommandsComplete i s hr.1 hp
  rcases h with ⟨e, he, -⟩ | ⟨t', u, hi, hj, hs, htime, hans⟩
  · rw [hn] at he
    cases he
  · rw [hn] at hi
    cases hi
    exact ⟨t, u, hn, hj, hs.tr, Nat.add_right_cancel htime, hs.slave, hans hr.idle hidle⟩

/-- A transfer from a ready state does the same on the wire as a transfer over the same sequence, whatever
words the two are and whatever responses they make of the sequence's value. -/
theorem runTransfer_sameOnTheWire {α : Type} {x : Proc α} {f g : α → Resp} (hr : ReadyToTransfer s)
    (ht : transfers i = true) (hx : Follows false false x) (hf : ∀ a, f a = answer (g a))
    (hi : exec i s = runTransfer (encode i) (do let a ← x; return f a) s)
    (hj : exec j s = runTransfer (encode j) (do let a ← x; return g a) s) : SameOnTheWire i j answer s := by
  refine sameOnTheWire_of_alike hr ht ?_
  rw [hi, hj]
  exact runTransfer_alike (ans := fun r r' => r = answer r') hx hf (sameBlock_refl s)

/-- A command that is one discarded write is the `BE.WR8` of its register on `DEVADDR`, whatever that
answers (R140, R172). -/
theorem controllerStore_sameOnTheWire {reg val : Byte} (hr : ReadyToTransfer s) (ht : transfers i = true)
    (h : controllerStore i = some (reg, val)) :
    SameOnTheWire i (.beWr8 s.par.devAddr reg val) (fun _ => respDone) s :=
  runTransfer_sameOnTheWire hr ht (follows_writeRegister s.par.devAddr reg val) (fun _ => rfl)
    (wrDone_eq s.par reg val ▸ exec_controllerStore h s) rfl

/-- `DC.RDSTATUS` is the `BE.RD8` of `STATUS`, answered alike. -/
theorem dcRdstatus_sameOnTheWire (hr : ReadyToTransfer s) :
    SameOnTheWire .dcRdstatus (.beRd8 s.par.devAddr regStatus false) id s :=
  runTransfer_sameOnTheWire hr rfl (follows_readRegister s.par.devAddr regStatus) (fun _ => rfl) rfl rfl

/-- `DC.ISCONN` is the `BE.PROBE` of `DEVADDR`, answered alike. -/
theorem dcIsconn_sameOnTheWire (hr : ReadyToTransfer s) :
    SameOnTheWire .dcIsconn (.beProbe s.par.devAddr) id s :=
  runTransfer_sameOnTheWire hr rfl (follows_probe s.par.devAddr) (fun _ => rfl) rfl rfl

end wire

/-- Settles O40: four commands are a discarded write, the other two a read and a probe with its answer, and
a slot beyond 7 is answered at once. -/
theorem controllerCommandsAreEngineFrames : Obligations.ControllerCommandsAreEngineFrames := fun s hr =>
  ⟨fun _ => controllerStore_sameOnTheWire hr rfl rfl, fun _ => controllerStore_sameOnTheWire hr rfl rfl,
    fun _ _ h => controllerStore_sameOnTheWire hr (decide_eq_true h) (if_pos h),
    fun _ effect h => ⟨_, execDcSetwave_beyond effect h hr.idle, rfl, rfl, rfl⟩,
    controllerStore_sameOnTheWire hr rfl rfl, dcRdstatus_sameOnTheWire hr, dcIsconn_sameOnTheWire hr⟩

end Sys2Proof.Machine
end

section
/-! SUPPORT. The family of exceptions (R160, R169, R170): what a command that fails leaves. -/

namespace Sys2Proof.Machine

/-- A command that answers `ok` 0 has completed with the failure response: of the ways a command can go on,
a hang needs the other stall model (R164), and `BE.BEGIN` and `BE.SETHP` answer `ok` 1 (R111, R112). -/
theorem completed_of_failure {i : Instr} {s t : State} (hr : Ready s) (hn : exec i s = .next t)
    (hf : t.resp.ok = false) : ∃ ops, Completed (encode i) ops respFail s t := by
  obtain ⟨hb, hnone⟩ := hr
  rcases exec_next hb hn with ⟨-, h⟩ | ⟨-, h⟩ | ⟨-, -, rfl⟩ | ⟨us, -, rfl⟩ | ⟨r, rfl | rfl, rfl⟩
  · obtain ⟨ops, r, hc, -, -, hfail⟩ := h.done
    rw [hc.resp] at hf
    exact ⟨ops, hfail hf ▸ hc⟩
  · exact absurd h (not_hungFrom hnone)
  · cases hf
  · cases hf
  · cases hf
  · exact ⟨[], completed_accept ..⟩

/-- Settles O49: a failure is a completion, and a completion keeps the lines, `HP`, the constants and the
words to come. -/
theorem failureIsOnlyAResponse : Obligations.FailureIsOnlyAResponse := by
  intro i s t hr hn hf
  obtain ⟨ops, hc⟩ := completed_of_failure hr hn hf
  exact ⟨hc.resp, hc.busy, hc.upc, hc.sclm, hc.sclo, hc.sdam, hc.hp, hc.par, hc.offered⟩

end Sys2Proof.Machine
end
